-- ==== Sys2Proof/Word.lean ====
section
/-! DEFINITION. Bytes and Blocks (spec 00_scope.md R8): the two data types of the datapath. -/

namespace Sys2Proof

/-- A byte (R8, R9): bit 7 is the most significant; never signed. -/
abbrev Byte := BitVec 8

/-- A Block (R8): exactly eight bytes; `b0` is byte index 0, the first byte of a buffer. -/
structure Block where
  b0 : Byte
  b1 : Byte
  b2 : Byte
  b3 : Byte
  b4 : Byte
  b5 : Byte
  b6 : Byte
  b7 : Byte
deriving DecidableEq, Repr, Inhabited

/-- The Block of eight zero bytes, `0^8` (R8). -/
def Block.zero : Block := ⟨0, 0, 0, 0, 0, 0, 0, 0⟩

end Sys2Proof
end

