-- ==== Sys2Proof/Syntax.lean ====
section
/-! DEFINITION. The commands of the block (spec 30_encoding.md R83, R84, R90) and the selectors they are made of. -/

namespace Sys2Proof

/-- The algorithm selector (R27, R131): single-length or triple-length key. -/
inductive Alg where
  | single
  | triple
deriving DecidableEq, Repr, Inhabited

/-- The direction (R27). -/
inductive Dir where
  | encrypt
  | decrypt
deriving DecidableEq, Repr, Inhabited

/-- The effective mode (R27): never "unknown". -/
inductive Mode where
  | ecb
  | cbc
  | cfb
  | ofb
  | ctr
deriving DecidableEq, Repr, Inhabited

/-- The operation asked of the single-block primitive (R132). -/
inductive PrimOp where
  | enc
  | dec
deriving DecidableEq, Repr, Inhabited

/-- What START latches of a command (R85): the contents of `MODE`, `DIR`, `ALG`. -/
structure Command where
  mode : Mode
  dir : Dir
  alg : Alg
deriving DecidableEq, Repr, Inhabited

/-- One constructor per row of opcode_table.json (R83); the operand is the row's field letter `a`, `CMD[4]`.
`fb5` to `fb7` are the fallback rows, MODESEL 5 to 7 (R86, R90). -/
inductive Instr where
  | ecbEnc (a : Alg)
  | cbcEnc (a : Alg)
  | cfbEnc (a : Alg)
  | ofbEnc (a : Alg)
  | ctrEnc (a : Alg)
  | fb5Enc (a : Alg)
  | fb6Enc (a : Alg)
  | fb7Enc (a : Alg)
  | ecbDec (a : Alg)
  | cbcDec (a : Alg)
  | cfbDec (a : Alg)
  | ofbDec (a : Alg)
  | ctrDec (a : Alg)
  | fb5Dec (a : Alg)
  | fb6Dec (a : Alg)
  | fb7Dec (a : Alg)
deriving DecidableEq, Repr, Inhabited

/-- The selectors of the source's call `run(...)` as the character strings it takes (R81, R82, R89). -/
structure CallSelectors where
  mode : String
  direction : String
  algorithm : String
deriving DecidableEq, Repr

end Sys2Proof
end

