-- ==== Sys2Proof/WellFormed.lean ====
section
/-! DEFINITION. What is a legal command word and a legal call (spec R25, R80, R82, R86). -/

namespace Sys2Proof

/-- A command word is a 5-bit value; each of the 32 is legal (R25, R86). -/
def wfCommandWord (w : Nat) : Bool := decide (w < 32)

/-- Every command with every algorithm selector is legal: there is no illegal encoding (R86). -/
def Instr.wf : Instr → Bool
  | .ecbEnc _ => true
  | .cbcEnc _ => true
  | .cfbEnc _ => true
  | .ofbEnc _ => true
  | .ctrEnc _ => true
  | .fb5Enc _ => true
  | .fb6Enc _ => true
  | .fb7Enc _ => true
  | .ecbDec _ => true
  | .cbcDec _ => true
  | .cfbDec _ => true
  | .ofbDec _ => true
  | .ctrDec _ => true
  | .fb5Dec _ => true
  | .fb6Dec _ => true
  | .fb7Dec _ => true

/-- The two direction strings (R82). -/
def wfDirection (d : String) : Bool := decide (d = "encrypt") || decide (d = "decrypt")

/-- The two algorithm strings (R82). -/
def wfAlgorithm (a : String) : Bool := decide (a = "single") || decide (a = "triple")

/-- A call the host driver turns into a command (R82, D4). The mode string is not checked: every string is
accepted, an unrecognized one means ECB (R81, R243). -/
def CallSelectors.wf (c : CallSelectors) : Bool := wfDirection c.direction && wfAlgorithm c.algorithm

end Sys2Proof
end

