-- ==== Sys2Proof/Decode.lean ====
section
/-! DEFINITION. The command word: its fields (spec R80, R85), the decoder (R83) and the encoder. -/

namespace Sys2Proof

/-- `ALGSEL = CMD[4]` (R80, R85). -/
def algOf (c : BitVec 5) : Alg := if c.getLsbD 4 then .triple else .single

/-- `DIRSEL = CMD[3]` (R80, R85). -/
def dirOf (c : BitVec 5) : Dir := if c.getLsbD 3 then .decrypt else .encrypt

/-- `MODESEL = CMD[2:0]` and the mode it selects; 5, 6 and 7 select ECB (R85, R86). -/
def modeOf (c : BitVec 5) : Mode :=
  match c.getLsbD 2, c.getLsbD 1, c.getLsbD 0 with
  | false, false, false => .ecb
  | false, false, true => .cbc
  | false, true, false => .cfb
  | false, true, true => .ofb
  | true, false, false => .ctr
  | true, false, true => .ecb
  | true, true, false => .ecb
  | true, true, true => .ecb

/-- The fields START latches, straight from the bits (R85). -/
def fieldsOf (c : BitVec 5) : Command := ⟨modeOf c, dirOf c, algOf c⟩

/-- The opcode map, row by row as R83 prints it: `CMD[3:0]` bit by bit, `CMD[4]` as the operand. Total (R83, R86). -/
def decodeCmd (c : BitVec 5) : Instr :=
  match c.getLsbD 3, c.getLsbD 2, c.getLsbD 1, c.getLsbD 0 with
  | false, false, false, false => .ecbEnc (algOf c)
  | false, false, false, true => .cbcEnc (algOf c)
  | false, false, true, false => .cfbEnc (algOf c)
  | false, false, true, true => .ofbEnc (algOf c)
  | false, true, false, false => .ctrEnc (algOf c)
  | false, true, false, true => .fb5Enc (algOf c)
  | false, true, true, false => .fb6Enc (algOf c)
  | false, true, true, true => .fb7Enc (algOf c)
  | true, false, false, false => .ecbDec (algOf c)
  | true, false, false, true => .cbcDec (algOf c)
  | true, false, true, false => .cfbDec (algOf c)
  | true, false, true, true => .ofbDec (algOf c)
  | true, true, false, false => .ctrDec (algOf c)
  | true, true, false, true => .fb5Dec (algOf c)
  | true, true, true, false => .fb6Dec (algOf c)
  | true, true, true, true => .fb7Dec (algOf c)

/-- Why bytes hold no command word. -/
inductive DecodeError where
  /-- There is no byte to read. -/
  | noByte
  /-- A bit above `CMD[4]` is set: the value is not a 5-bit value (R52, R80). -/
  | notFiveBits
deriving DecidableEq, Repr

/-- A command word carried in a byte, `CMD` in bits 4..0. DESIGN CHOICE (log 13): a byte with a bit above 4 set is no
command word and is rejected; safe. -/
def decode : List Byte → Except DecodeError (Instr × List Byte)
  | [] => .error .noByte
  | b :: rest =>
    if b.extractLsb' 5 3 = 0#3 then .ok (decodeCmd (b.extractLsb' 0 5), rest) else .error .notFiveBits

/-- The ten operations and the fallback forms: what each command word stands for (R84, R86, R90). -/
def Instr.command : Instr → Command
  | .ecbEnc a => ⟨.ecb, .encrypt, a⟩
  | .cbcEnc a => ⟨.cbc, .encrypt, a⟩
  | .cfbEnc a => ⟨.cfb, .encrypt, a⟩
  | .ofbEnc a => ⟨.ofb, .encrypt, a⟩
  | .ctrEnc a => ⟨.ctr, .encrypt, a⟩
  | .fb5Enc a => ⟨.ecb, .encrypt, a⟩
  | .fb6Enc a => ⟨.ecb, .encrypt, a⟩
  | .fb7Enc a => ⟨.ecb, .encrypt, a⟩
  | .ecbDec a => ⟨.ecb, .decrypt, a⟩
  | .cbcDec a => ⟨.cbc, .decrypt, a⟩
  | .cfbDec a => ⟨.cfb, .decrypt, a⟩
  | .ofbDec a => ⟨.ofb, .decrypt, a⟩
  | .ctrDec a => ⟨.ctr, .decrypt, a⟩
  | .fb5Dec a => ⟨.ecb, .decrypt, a⟩
  | .fb6Dec a => ⟨.ecb, .decrypt, a⟩
  | .fb7Dec a => ⟨.ecb, .decrypt, a⟩

/-- `ALGSEL` as a bit (R80). -/
def algSel : Alg → BitVec 1
  | .single => 0#1
  | .triple => 1#1

/-- The command word of each row: `CMD[4]` then the row's `CMD[3:0]` (R83). -/
def encode : Instr → BitVec 5
  | .ecbEnc a => algSel a ++ 0b0000#4
  | .cbcEnc a => algSel a ++ 0b0001#4
  | .cfbEnc a => algSel a ++ 0b0010#4
  | .ofbEnc a => algSel a ++ 0b0011#4
  | .ctrEnc a => algSel a ++ 0b0100#4
  | .fb5Enc a => algSel a ++ 0b0101#4
  | .fb6Enc a => algSel a ++ 0b0110#4
  | .fb7Enc a => algSel a ++ 0b0111#4
  | .ecbDec a => algSel a ++ 0b1000#4
  | .cbcDec a => algSel a ++ 0b1001#4
  | .cfbDec a => algSel a ++ 0b1010#4
  | .ofbDec a => algSel a ++ 0b1011#4
  | .ctrDec a => algSel a ++ 0b1100#4
  | .fb5Dec a => algSel a ++ 0b1101#4
  | .fb6Dec a => algSel a ++ 0b1110#4
  | .fb7Dec a => algSel a ++ 0b1111#4

/-- The command word in a byte. -/
def encodeBytes (i : Instr) : List Byte := [0#3 ++ encode i]

/-- The byte layout of a word numbered as opcode_table.json numbers it: byte `k` holds bits `8k+7 .. 8k`. -/
def layWord : Nat → Nat → List Byte
  | 0, _ => []
  | k + 1, w => BitVec.ofNat 8 w :: layWord k (w / 256)

/-- The command the decoder reads from a table word of `nbits` bits: the word laid out in bytes (at least the one byte
a command word takes) goes to `decode`, and every bit beyond the command's own byte must be 0. -/
def decodeTableWord (nbits w : Nat) : Option Instr :=
  match decode (layWord (max 1 (nbits / 8)) w) with
  | .ok (i, rest) => if rest.all (fun b => b == 0#8) then some i else none
  | .error _ => none

/-- `modesel(s)` (R81): exact, case-sensitive match; every other string selects ECB. -/
def modesel (s : String) : BitVec 3 :=
  if s = "CBC" then 1 else if s = "CFB" then 2 else if s = "OFB" then 3 else if s = "CTR" then 4 else 0

/-- `DIRSEL` of a direction string (R82); DESIGN CHOICE of the spec, D4: any other string issues no command. -/
def dirsel (s : String) : Option (BitVec 1) :=
  if s = "encrypt" then some 0 else if s = "decrypt" then some 1 else none

/-- `ALGSEL` of an algorithm string (R82, D4). -/
def algsel (s : String) : Option (BitVec 1) :=
  if s = "single" then some 0 else if s = "triple" then some 1 else none

/-- The command word a host driver writes for the selectors of a `run(...)` call, if it issues one (R80 to R82, D4). -/
def CallSelectors.cmd (c : CallSelectors) : Option (BitVec 5) :=
  match dirsel c.direction, algsel c.algorithm with
  | some d, some a => some (a ++ (d ++ modesel c.mode))
  | _, _ => none

end Sys2Proof
end

