-- ==== Sys2Proof/Config.lean ====
section
/-! DEFINITION. What does not change while the block runs (spec R6, R7, R21): the fixed parameters, the external
primitive and the buffer capacities. -/

namespace Sys2Proof

/-- The host-visible elements that have a place on a bus (R51): the buffers with their lengths, `CMD`, `STATUS`, and the
triggers of `Start` and `Reset`. -/
inductive HostReg where
  | rawMsg
  | rawMsgLen
  | rawKey
  | rawKeyLen
  | rawIv
  | rawIvLen
  | rawNonce
  | rawNonceLen
  | cmd
  | status
  | out
  | outLen
  | startTrigger
  | resetTrigger
deriving DecidableEq, Repr, Inhabited

/-- The open parameters of R7: the primitive in its two directions (R131; `none` is the answer `PrimErr`), the
capacities (`none`: unbounded, D13), and the bus address of each host-visible element (R51, D17), which no rule reads:
host operations go by name. The definitions of the model take them as an argument, so that they can also be
run with a primitive whose values are known; the machine itself uses `Config.platform`. -/
structure Platform where
  E : Alg → List Byte → Block → Option Block
  D : Alg → List Byte → Block → Option Block
  maxMsgBytes : Option Nat
  maxRawBytes : Option Nat
  hostMap : HostReg → Nat
deriving Inhabited

namespace Config

/-- `BLOCK_BYTES` (R6). -/
def blockBytes : Nat := 8

/-- `KEY_BYTES` (R6, R117). -/
def keyBytes : Alg → Nat
  | .single => 8
  | .triple => 24

/-- `IV_BYTES` (R6). -/
def ivBytes : Nat := 8

/-- `NONCE_BYTES` (R6). -/
def nonceBytes : Nat := 4

/-- `CTR_BYTES` (R6). -/
def ctrBytes : Nat := 4

/-- `CTR_INIT` (R6): each counter byte when an engine is constructed. -/
def ctrInit : Byte := 0

/-- `CTR_BYTE_MAX` (R6, U2): the value at which a counter byte carries. -/
def ctrByteMax : Byte := 127

/-- The primitive in the encrypt direction (R131, D16): nothing is known of it but its type. DESIGN CHOICE (log 6):
an uninterpreted constant; safe. -/
opaque E : Alg → List Byte → Block → Option Block

/-- The primitive in the decrypt direction (R131, D16). DESIGN CHOICE (log 6); safe. -/
opaque D : Alg → List Byte → Block → Option Block

/-- `MAX_MSG_BYTES` (R7, D13), `none` meaning unbounded. DESIGN CHOICE (log 7); safe. -/
opaque maxMsgBytes : Option Nat

/-- `MAX_RAW_BYTES` (R7, D13), `none` meaning unbounded. DESIGN CHOICE (log 7); safe. -/
opaque maxRawBytes : Option Nat

/-- `HOST_MAP` (R7, R51, D17). DESIGN CHOICE (log 12): an uninterpreted constant, which no operation reads; safe. -/
opaque hostMap : HostReg → Nat

/-- The platform the machine runs on. -/
def platform : Platform := ⟨E, D, maxMsgBytes, maxRawBytes, hostMap⟩

end Config

end Sys2Proof
end

