-- ==== Sys2Proof/Machine/State.lean ====
section
/-! DEFINITION. The state of the MOP (spec 10_state.md R20 to R38), the host's operations (R52) and the reasons a step
can stop. -/

namespace Sys2Proof.Machine

open Sys2Proof

/-- `STATUS.ST` (R26). -/
inductive St where
  | idle
  | busy
  | done
  | error
deriving DecidableEq, Repr

/-- `STATUS.ERR` (R26): code 2 is reserved, code 3 is never produced. -/
inductive Err where
  | none
  | cipherPrimitiveError
  | lengthMismatch
  | code3
deriving DecidableEq, Repr

/-- The errors of the source (R240): these are not stops, they take the error entry (R250). -/
inductive EngineError where
  /-- The primitive answered `PrimErr` (R241). -/
  | cipherPrimitiveError
  /-- `xor` of buffers of the two given lengths (R114, R242). -/
  | lengthMismatch (la lb : Nat)
deriving DecidableEq, Repr

/-- The four raw buffers a host can write (R52). -/
inductive RawBuf where
  | rawMsg
  | rawKey
  | rawIv
  | rawNonce
deriving DecidableEq, Repr

/-- The host operations (R52). -/
inductive HostOp where
  | writeBuf (x : RawBuf) (b : List Byte)
  | writeCmd (c : BitVec 5)
  | start
  | readStatus
  | readOut
  | reset
deriving DecidableEq, Repr

/-- Which agent moves (R12): the host, with one operation, or the engine. -/
inductive Move where
  | host (op : HostOp)
  | engine
deriving DecidableEq, Repr

/-- What a host operation returned to the host (R52). -/
inductive HostAnswer where
  /-- The operation returns nothing. -/
  | nothing
  /-- `WriteBuf` beyond the buffer's capacity: refused, the state does not change. -/
  | refusedWrite
  /-- `ReadStatus`: the word `STATUS`. -/
  | status (w : BitVec 4)
  /-- `ReadOut`: the buffer `OUT`. -/
  | out (b : List Byte)
deriving DecidableEq, Repr

/-- The block-addressed memory `OUTB` (R34): pairs of an index and the Block written there, in the canonical form
`Memory.wf`, indices strictly rising. An index that is not listed holds no value. -/
abbrev BlockBuf := List (Nat × Block)

/-- Why the machine stops. None of these is reachable from reset. -/
inductive Fault where
  /-- A block step at an index where `MSG` has no Block (R11: rules only read inside the length). Raised by
  `blockStep`. Safe. -/
  | msgBlockAbsent
  /-- FINISH meets a Block of `OUTB` that no step has written (R34). Raised by `finish`. Safe. -/
  | outBlockUnwritten
  /-- `ST = BUSY` and `BI > N`: neither a block step nor FINISH is enabled (R35). Raised by `advance`. Safe. -/
  | noStepEnabled
deriving DecidableEq, Repr

/-- Why a meaning gives no next state. None of these is reachable by a step from reset. -/
inductive Refusal where
  /-- The instruction has no meaning yet. Raised by no arm of `exec`. Safe. -/
  | notModelled (mnemonic : String)
  /-- `ctrinc` of a register whose counter half has a byte above 127: the spec gives no meaning (R192 b, U5). Raised
  by the CTR block step. Safe. -/
  | counterByteAbove127
  /-- A command is asked to go on while `MODE` and `DIR` latch another one: its block step is not enabled (R150 and
  the other per-command rules). Raised by `command`; `step` never asks for it. Safe. -/
  | otherCommandInProgress
deriving DecidableEq, Repr

/-- The state of the MOP: the elements of R22 to R35, and the model's own `agenda` and `answer`. -/
structure State where
  /-- `RAWMSG` (R22). -/
  rawMsg : List Byte
  /-- `RAWKEY` (R23). -/
  rawKey : List Byte
  /-- `RAWIV` (R23). -/
  rawIv : List Byte
  /-- `RAWNONCE` (R23). -/
  rawNonce : List Byte
  /-- `CMD` (R25). -/
  cmd : BitVec 5
  /-- `STATUS` (R26). -/
  status : BitVec 4
  /-- `OUT` (R24). -/
  out : List Byte
  /-- `ALG` (R27). -/
  alg : Alg
  /-- `DIR` (R27). -/
  dir : Dir
  /-- `MODE` (R27). -/
  mode : Mode
  /-- `N` (R28). -/
  n : Nat
  /-- `BI` (R35). -/
  bi : Nat
  /-- `KEYN` (R30). -/
  keyn : List Byte
  /-- `IVN` (R31). -/
  ivn : Block
  /-- `CV` (R32). -/
  cv : Block
  /-- `CTRR` (R33): `NONCE` is bytes 0 to 3, `CNT` bytes 4 to 7. -/
  ctrr : Block
  /-- `MSG` (R34). -/
  msg : List Block
  /-- `OUTB` (R34). -/
  outb : BlockBuf
  /-- The moves to come, in order; when it is empty the engine moves. The model's own field, DESIGN CHOICE (log 2);
  safe: every interleaving is some agenda. -/
  agenda : List Move
  /-- What the last host operation returned. The model's own field, DESIGN CHOICE (log 3); safe: no step reads it. -/
  answer : HostAnswer
deriving DecidableEq, Repr

/-- The machine right after reset (R38). The host-visible elements have the values of R38. The engine-private elements
have none there: single, encrypt, ECB, zero and empty are DESIGN CHOICE (log 4); unsafe for a claim that reads them
before the first START. -/
def State.reset : State where
  rawMsg := []
  rawKey := []
  rawIv := []
  rawNonce := []
  cmd := 0b00000#5
  status := 0b0000#4
  out := []
  alg := .single
  dir := .encrypt
  mode := .ecb
  n := 0
  bi := 0
  keyn := [0, 0, 0, 0, 0, 0, 0, 0]
  ivn := Block.zero
  cv := Block.zero
  ctrr := Block.zero
  msg := []
  outb := []
  agenda := []
  answer := .nothing

end Sys2Proof.Machine
end

