-- ==== Sys2Proof/Machine/Flags.lean ====
section
/-! DEFINITION. The register `STATUS` (spec 10_state.md R26): its two fields and every write to them. -/

namespace Sys2Proof.Machine

open Sys2Proof

/-- The code of `ST` in `STATUS[1:0]` (R26). -/
def stCode : St → BitVec 2
  | .idle => 0#2
  | .busy => 1#2
  | .done => 2#2
  | .error => 3#2

/-- The code of `ERR` in `STATUS[3:2]` (R26). -/
def errCode : Err → BitVec 2
  | .none => 0#2
  | .cipherPrimitiveError => 1#2
  | .lengthMismatch => 2#2
  | .code3 => 3#2

/-- `STATUS[1:0]`. -/
def stOf (w : BitVec 4) : St :=
  match w.getLsbD 1, w.getLsbD 0 with
  | false, false => .idle
  | false, true => .busy
  | true, false => .done
  | true, true => .error

/-- `STATUS[3:2]`. -/
def errOf (w : BitVec 4) : Err :=
  match w.getLsbD 3, w.getLsbD 2 with
  | false, false => .none
  | false, true => .cipherPrimitiveError
  | true, false => .lengthMismatch
  | true, true => .code3

/-- `STATUS` from its two fields. -/
def packStatus (st : St) (e : Err) : BitVec 4 := errCode e ++ stCode st

/-- `STATUS.ST <- st`, `ERR` as it is. -/
def withSt (w : BitVec 4) (st : St) : BitVec 4 := packStatus st (errOf w)

/-- `code(X)` of the error entry (R240, R250). -/
def errOfError : EngineError → Err
  | .cipherPrimitiveError => .cipherPrimitiveError
  | .lengthMismatch _ _ => .lengthMismatch

/-- START: `ST <- BUSY`, `ERR <- NONE` (R26, R211). -/
def startStatus : BitVec 4 := packStatus .busy .none

/-- FINISH: `ST <- DONE`, `ERR` stays (R26, R216). -/
def finishStatus (w : BitVec 4) : BitVec 4 := withSt w .done

/-- Error entry: `ST <- ERROR`, `ERR <- code(X)` (R26, R250). -/
def errorStatus (e : EngineError) : BitVec 4 := packStatus .error (errOfError e)

/-- `STATUS.ST` of a state. -/
def State.st (s : State) : St := stOf s.status

/-- `STATUS.ERR` of a state. -/
def State.err (s : State) : Err := errOf s.status

end Sys2Proof.Machine
end

