-- ==== Sys2Proof/Machine/Ops.lean ====
section
/-! DEFINITION. The named operations every command is built from: the block utilities (spec 40_block_utilities.md), the
block buffer `OUTB`, the request to the primitive (R132), the error entry (R250) and FINISH (R216). -/

namespace Sys2Proof

/-- The bytes of a Block in index order (R8, R53). -/
def Block.bytes (b : Block) : List Byte := [b.b0, b.b1, b.b2, b.b3, b.b4, b.b5, b.b6, b.b7]

/-- Byte `j` of a Block (R8). -/
def Block.byte (b : Block) (j : Nat) : Byte := b.bytes.getD j 0

/-- The 64-bit path: byte 0 in bits 63..56, byte 7 in bits 7..0 (R55, D6; log 18). -/
def Block.toWide (b : Block) : BitVec 64 :=
  b.b0 ++ (b.b1 ++ (b.b2 ++ (b.b3 ++ (b.b4 ++ (b.b5 ++ (b.b6 ++ b.b7))))))

/-- The Block a 64-bit path carries (R55). -/
def Block.ofWide (w : BitVec 64) : Block :=
  ⟨w.extractLsb' 56 8, w.extractLsb' 48 8, w.extractLsb' 40 8, w.extractLsb' 32 8,
    w.extractLsb' 24 8, w.extractLsb' 16 8, w.extractLsb' 8 8, w.extractLsb' 0 8⟩

/-- A byte sequence on a path as wide as it is long, byte 0 in the top 8 bits: a 24-byte key on the 192-bit path (R55). -/
def widePath : (l : List Byte) → BitVec (8 * l.length)
  | [] => 0#0
  | b :: l => (b ++ widePath l).cast (by simp; omega)

end Sys2Proof

namespace Sys2Proof.Machine

open Sys2Proof

/-- `zext_8(b)` (R11): right zero-padding of at most eight bytes to a Block. -/
def zext8 (l : List Byte) : Block :=
  ⟨l.getD 0 0, l.getD 1 0, l.getD 2 0, l.getD 3 0, l.getD 4 0, l.getD 5 0, l.getD 6 0, l.getD 7 0⟩

/-- `ceil(a / 8)` (R10). -/
def ceil8 (a : Nat) : Nat := (a + 7) / 8

/-- `MemRead(space, off, n)` (R11); the rules only read inside the length. -/
def memRead (space : List Byte) (off n : Nat) : List Byte := (space.drop off).take n

/-- `split` (R110): chunk `i` is the `min(8, L - 8*i)` bytes at offset `8*i`, zero-extended. -/
def split (input : List Byte) : List Block :=
  (List.range (ceil8 input.length)).map fun i => zext8 (memRead input (8 * i) (min 8 (input.length - 8 * i)))

/-- `join` (R112): all Blocks in order; never shortens. -/
def join (m : List Block) : List Byte := m.flatMap Block.bytes

/-- `pad` (R111): `input || 0^(8*ceil(L/8) - L)`. -/
def pad (input : List Byte) : List Byte :=
  input ++ List.replicate (8 * ceil8 input.length - input.length) 0

/-- The XOR combiner on two Blocks (R114, R242): eight lanes of eight bits. -/
def xorBlock (a b : Block) : Block :=
  ⟨a.b0 ^^^ b.b0, a.b1 ^^^ b.b1, a.b2 ^^^ b.b2, a.b3 ^^^ b.b3,
    a.b4 ^^^ b.b4, a.b5 ^^^ b.b5, a.b6 ^^^ b.b6, a.b7 ^^^ b.b7⟩

/-- The stand-alone `xor` on byte buffers (R114): unequal lengths raise `LengthMismatch`, never a value (R242, U1). -/
def xorBytes (a b : List Byte) : Except EngineError (List Byte) :=
  if a.length = b.length then .ok (List.zipWith (fun x y => x ^^^ y) a b)
  else .error (.lengthMismatch a.length b.length)

/-- `normalize(buf, n)` (R116): all zero if empty, else `buf[i mod m]`. -/
def normalize (buf : List Byte) (n : Nat) : List Byte :=
  if buf.length = 0 then List.replicate n 0
  else (List.range n).map fun i => buf.getD (i % buf.length) 0

/-- The Block of the first eight bytes of a buffer that is at least eight long: `IVN`, `CTRR` from normalized parts. -/
def blockOfBytes (l : List Byte) : Block := zext8 l

/-- `OUTB[i]`: the Block written at index `i`, if there is one (R34). -/
def Memory.read : BlockBuf → Nat → Option Block
  | [], _ => none
  | (k, b) :: rest, i => if k = i then some b else Memory.read rest i

/-- `OUTB[i] <- v`, keeping the canonical form. -/
def Memory.write : BlockBuf → Nat → Block → BlockBuf
  | [], i, v => [(i, v)]
  | (k, b) :: rest, i, v =>
    if i < k then (i, v) :: (k, b) :: rest
    else if i = k then (i, v) :: rest
    else (k, b) :: Memory.write rest i v

/-- The canonical form of `OUTB`: indices strictly rising. -/
abbrev Memory.wf (m : BlockBuf) : Prop := List.Pairwise (fun p q => p.1 < q.1) m

/-- `OUTB[i .. i+k-1]`, if every one of them has been written. -/
def Memory.gather (m : BlockBuf) : Nat → Nat → Option (List Block)
  | _, 0 => some []
  | i, k + 1 =>
    match Memory.read m i, Memory.gather m (i + 1) k with
    | some b, some bs => some (b :: bs)
    | _, _ => none

/-- `Prim(op, alg, key, blk)` (R132): one request through the adapter, routed by `op` to `E` or `D` and by `alg` inside
them; `PrimErr` raises `CipherPrimitiveError` (R137). -/
def prim (p : Platform) (op : PrimOp) (alg : Alg) (key : List Byte) (blk : Block) : Except EngineError Block :=
  match op with
  | .enc =>
    match p.E alg key blk with
    | some c => .ok c
    | none => .error .cipherPrimitiveError
  | .dec =>
    match p.D alg key blk with
    | some b => .ok b
    | none => .error .cipherPrimitiveError

/-- What one block step reads of the engine (R150 to R191, R214). -/
structure BlockIn where
  alg : Alg
  key : List Byte
  /-- `MSG[BI]`. -/
  msg : Block
  cv : Block
  ctrr : Block
deriving DecidableEq, Repr

/-- What one block step writes beside `BI` (R213, R214). -/
structure BlockOut where
  /-- `OUTB[BI]`. -/
  out : Block
  cv : Block
  ctrr : Block
deriving DecidableEq, Repr

/-- Why a block step writes nothing: it raises an error (R250), or the spec gives it no meaning (U5). -/
inductive BlockStop where
  | raises (e : EngineError)
  | noMeaning (r : Refusal)
deriving DecidableEq, Repr

/-- Error entry (R250): none of the failing step's writes happen, `OUT` is emptied, `STATUS` records the error. Nothing
is saved for resumption and control goes nowhere. -/
def errorEntry (e : EngineError) (s : State) : State :=
  { s with out := [], status := errorStatus e }

/-- FINISH (R216). -/
def finish (s : State) : Host.Outcome State Fault Refusal :=
  match Memory.gather s.outb 0 s.n with
  | some blocks => .next { s with out := join blocks, status := finishStatus s.status }
  | none => .fault .outBlockUnwritten

/-- The writes of a completed block step, all together (R213). -/
def commitBlock (w : BlockOut) (s : State) : State :=
  { s with outb := Memory.write s.outb s.bi w.out, cv := w.cv, ctrr := w.ctrr, bi := s.bi + 1 }

/-- One block step at index `BI` of the pipeline `f` (R213): its writes, or the error entry. -/
def blockStep (f : BlockIn → Except BlockStop BlockOut) (s : State) : Host.Outcome State Fault Refusal :=
  match s.msg[s.bi]? with
  | none => .fault .msgBlockAbsent
  | some m =>
    match f ⟨s.alg, s.keyn, m, s.cv, s.ctrr⟩ with
    | .ok w => .next (commitBlock w s)
    | .error (.raises e) => .next (errorEntry e s)
    | .error (.noMeaning r) => .refused r

/-- The engine step enabled while `ST = BUSY` (R213, R216, R217): a block step if `BI < N`, FINISH if `BI = N`. -/
def advance (f : BlockIn → Except BlockStop BlockOut) (s : State) : Host.Outcome State Fault Refusal :=
  if s.bi < s.n then blockStep f s
  else if s.bi = s.n then finish s
  else .fault .noStepEnabled

end Sys2Proof.Machine
end

