-- ==== Sys2Proof/Machine/Operands.lean ====
section
/-! DEFINITION. Operand assembly (spec 30_encoding.md R88), the START step that latches it (R211), and a command's one
engine step, which every meaning is an instance of. -/

namespace Sys2Proof.Machine

open Sys2Proof

/-- `MSG` (R88). -/
def operandMsg (s : State) : List Block := split s.rawMsg

/-- `N` (R28, R211). -/
def operandN (s : State) : Nat := ceil8 s.rawMsg.length

/-- `KEYN` (R30, R88, R117). -/
def operandKey (alg : Alg) (s : State) : List Byte := normalize s.rawKey (Config.keyBytes alg)

/-- `IVN`, and the first `CV` (R31, R32, R88; C11). -/
def operandIv (s : State) : Block := blockOfBytes (normalize s.rawIv Config.ivBytes)

/-- `CTRR` (R33, R88): nonce first, then the counter at its initial value. -/
def operandCtrr (s : State) : Block :=
  blockOfBytes (normalize s.rawNonce Config.nonceBytes ++ List.replicate Config.ctrBytes Config.ctrInit)

/-- START (R211): latch the command, assemble the operands, no block written, `OUT` empty, `BUSY`. It reads the raw
buffers, and issues no request; it cannot fail. -/
def start (c : Command) (s : State) : State :=
  { s with
    alg := c.alg
    dir := c.dir
    mode := c.mode
    msg := operandMsg s
    n := operandN s
    keyn := operandKey c.alg s
    ivn := operandIv s
    cv := operandIv s
    ctrr := operandCtrr s
    outb := []
    bi := 0
    out := []
    status := startStatus }

/-- Whether a mode's block step is the same in both directions (R180, R181, R190, R191). -/
def dirFree : Mode → Bool
  | .ecb => false
  | .cbc => false
  | .cfb => false
  | .ofb => true
  | .ctr => true

/-- Whether the latched run is one whose block step is the command's: `MODE` matches, and `DIR` where the command's
enabling condition names it (R150 to R191). -/
def inProgress (mode : Mode) (dir : Dir) (s : State) : Bool :=
  decide (s.mode = mode) && (dirFree mode || decide (s.dir = dir))

/-- One engine step of a command (log 1): START when no run is in progress (R211), else the next step of the run the
command began. DESIGN CHOICE (log 11): refused while another command's run is in progress; safe. -/
def command (c : Command) (f : BlockIn → Except BlockStop BlockOut) (s : State) : Host.Outcome State Fault Refusal :=
  if s.st = .busy then
    if inProgress c.mode c.dir s then advance f s else .refused .otherCommandInProgress
  else .next (start c s)

end Sys2Proof.Machine
end

