-- ==== Sys2Proof/Machine/Cbc.lean ====
section
/-! DEFINITION. CBC (spec 43_cbc.md). -/

namespace Sys2Proof.Machine

open Sys2Proof

/-- The block step of `CBC.ENC` (R160): the XOR comes before the primitive; the new chaining value is the output. -/
def cbcEncBlock (p : Platform) (x : BlockIn) : Except BlockStop BlockOut :=
  match prim p .enc x.alg x.key (xorBlock x.msg x.cv) with
  | .error e => .error (.raises e)
  | .ok c => .ok { out := c, cv := c, ctrr := x.ctrr }

/-- The block step of `CBC.DEC` (R161): the new chaining value is the input block, not the output. -/
def cbcDecBlock (p : Platform) (x : BlockIn) : Except BlockStop BlockOut :=
  match prim p .dec x.alg x.key x.msg with
  | .error e => .error (.raises e)
  | .ok middle => .ok { out := xorBlock middle x.cv, cv := x.msg, ctrr := x.ctrr }

/-- `CBC.ENC` (R160). -/
def execCbcEnc (a : Alg) (s : State) : Host.Outcome State Fault Refusal :=
  command ⟨.cbc, .encrypt, a⟩ (cbcEncBlock Config.platform) s

/-- `CBC.DEC` (R161). -/
def execCbcDec (a : Alg) (s : State) : Host.Outcome State Fault Refusal :=
  command ⟨.cbc, .decrypt, a⟩ (cbcDecBlock Config.platform) s

end Sys2Proof.Machine
end

