-- ==== Sys2Proof/Machine/Cfb.lean ====
section
/-! DEFINITION. CFB with full-block feedback (spec 44_cfb.md): the primitive only ever encrypts. -/

namespace Sys2Proof.Machine

open Sys2Proof

/-- The block step of `CFB.ENC` (R170): the new chaining value is the output. -/
def cfbEncBlock (p : Platform) (x : BlockIn) : Except BlockStop BlockOut :=
  match prim p .enc x.alg x.key x.cv with
  | .error e => .error (.raises e)
  | .ok keystream =>
    .ok { out := xorBlock x.msg keystream, cv := xorBlock x.msg keystream, ctrr := x.ctrr }

/-- The block step of `CFB.DEC` (R171): `ENC`, not `DEC`; the new chaining value is the input block. -/
def cfbDecBlock (p : Platform) (x : BlockIn) : Except BlockStop BlockOut :=
  match prim p .enc x.alg x.key x.cv with
  | .error e => .error (.raises e)
  | .ok keystream => .ok { out := xorBlock x.msg keystream, cv := x.msg, ctrr := x.ctrr }

/-- `CFB.ENC` (R170). -/
def execCfbEnc (a : Alg) (s : State) : Host.Outcome State Fault Refusal :=
  command ⟨.cfb, .encrypt, a⟩ (cfbEncBlock Config.platform) s

/-- `CFB.DEC` (R171). -/
def execCfbDec (a : Alg) (s : State) : Host.Outcome State Fault Refusal :=
  command ⟨.cfb, .decrypt, a⟩ (cfbDecBlock Config.platform) s

end Sys2Proof.Machine
end

