-- ==== Sys2Proof/Machine/Ctr.lean ====
section
/-! DEFINITION. CTR and its counter (spec 46_ctr.md): one procedure for both directions. -/

namespace Sys2Proof.Machine

open Sys2Proof

/-- Every byte of the counter half is in `0 .. 127` (R37 e): the registers `ctrinc` has a meaning for (R192 b). -/
def counterInRange (r : Block) : Bool :=
  decide (r.b4 ≤ Config.ctrByteMax) && decide (r.b5 ≤ Config.ctrByteMax) &&
    decide (r.b6 ≤ Config.ctrByteMax) && decide (r.b7 ≤ Config.ctrByteMax)

/-- The scan of `ctrinc` (R192): bytes 7, 6, 5, 4; a byte below 127 is incremented and the scan stops, a byte at 127 is
cleared and carries; the carry out of byte 4 is dropped (R194). -/
def ctrScan (r : Block) : Block :=
  if r.b7 < Config.ctrByteMax then { r with b7 := r.b7 + 1 }
  else if r.b6 < Config.ctrByteMax then { r with b7 := 0, b6 := r.b6 + 1 }
  else if r.b5 < Config.ctrByteMax then { r with b7 := 0, b6 := 0, b5 := r.b5 + 1 }
  else if r.b4 < Config.ctrByteMax then { r with b7 := 0, b6 := 0, b5 := 0, b4 := r.b4 + 1 }
  else { r with b7 := 0, b6 := 0, b5 := 0, b4 := 0 }

/-- `ctrinc` (R192); no value for a register with a counter byte above 127 (R192 b, U5; log 9). -/
def ctrinc (r : Block) : Option Block := if counterInRange r then some (ctrScan r) else none

/-- `ctr128(t)` (R193) as the counter half behind a given nonce half. -/
def ctrAt (nonce : Block) (t : Nat) : Block :=
  { nonce with
    b4 := BitVec.ofNat 8 (t / 128 ^ 3 % 128)
    b5 := BitVec.ofNat 8 (t / 128 ^ 2 % 128)
    b6 := BitVec.ofNat 8 (t / 128 % 128)
    b7 := BitVec.ofNat 8 (t % 128) }

/-- The block step of CTR (R190, R191): the register is used first and incremented afterwards. -/
def ctrBlock (p : Platform) (x : BlockIn) : Except BlockStop BlockOut :=
  match prim p .enc x.alg x.key x.ctrr with
  | .error e => .error (.raises e)
  | .ok keystream =>
    match ctrinc x.ctrr with
    | some r => .ok { out := xorBlock x.msg keystream, cv := x.cv, ctrr := r }
    | none => .error (.noMeaning .counterByteAbove127)

/-- `CTR.ENC` (R190). -/
def execCtrEnc (a : Alg) (s : State) : Host.Outcome State Fault Refusal :=
  command ⟨.ctr, .encrypt, a⟩ (ctrBlock Config.platform) s

/-- `CTR.DEC` (R191). -/
def execCtrDec (a : Alg) (s : State) : Host.Outcome State Fault Refusal :=
  command ⟨.ctr, .decrypt, a⟩ (ctrBlock Config.platform) s

end Sys2Proof.Machine
end

