-- ==== Sys2Proof/Machine/Ecb.lean ====
section
/-! DEFINITION. ECB (spec 42_ecb.md), with the fallback commands that run it (R86, R90). -/

namespace Sys2Proof.Machine

open Sys2Proof

/-- The block step of `ECB.ENC` (R150). -/
def ecbEncBlock (p : Platform) (x : BlockIn) : Except BlockStop BlockOut :=
  match prim p .enc x.alg x.key x.msg with
  | .error e => .error (.raises e)
  | .ok c => .ok { out := c, cv := x.cv, ctrr := x.ctrr }

/-- The block step of `ECB.DEC` (R151). -/
def ecbDecBlock (p : Platform) (x : BlockIn) : Except BlockStop BlockOut :=
  match prim p .dec x.alg x.key x.msg with
  | .error e => .error (.raises e)
  | .ok b => .ok { out := b, cv := x.cv, ctrr := x.ctrr }

/-- `ECB.ENC` (R150). -/
def execEcbEnc (a : Alg) (s : State) : Host.Outcome State Fault Refusal :=
  command ⟨.ecb, .encrypt, a⟩ (ecbEncBlock Config.platform) s

/-- `ECB.DEC` (R151). -/
def execEcbDec (a : Alg) (s : State) : Host.Outcome State Fault Refusal :=
  command ⟨.ecb, .decrypt, a⟩ (ecbDecBlock Config.platform) s

/-- `FB5.ENC`: MODESEL 5 runs ECB, silently (R86, R90). -/
def execFb5Enc (a : Alg) (s : State) : Host.Outcome State Fault Refusal :=
  command ⟨.ecb, .encrypt, a⟩ (ecbEncBlock Config.platform) s

/-- `FB6.ENC`: MODESEL 6 runs ECB, silently (R86, R90). -/
def execFb6Enc (a : Alg) (s : State) : Host.Outcome State Fault Refusal :=
  command ⟨.ecb, .encrypt, a⟩ (ecbEncBlock Config.platform) s

/-- `FB7.ENC`: MODESEL 7 runs ECB, silently (R86, R90). -/
def execFb7Enc (a : Alg) (s : State) : Host.Outcome State Fault Refusal :=
  command ⟨.ecb, .encrypt, a⟩ (ecbEncBlock Config.platform) s

/-- `FB5.DEC` (R86, R90). -/
def execFb5Dec (a : Alg) (s : State) : Host.Outcome State Fault Refusal :=
  command ⟨.ecb, .decrypt, a⟩ (ecbDecBlock Config.platform) s

/-- `FB6.DEC` (R86, R90). -/
def execFb6Dec (a : Alg) (s : State) : Host.Outcome State Fault Refusal :=
  command ⟨.ecb, .decrypt, a⟩ (ecbDecBlock Config.platform) s

/-- `FB7.DEC` (R86, R90). -/
def execFb7Dec (a : Alg) (s : State) : Host.Outcome State Fault Refusal :=
  command ⟨.ecb, .decrypt, a⟩ (ecbDecBlock Config.platform) s

end Sys2Proof.Machine
end

