-- ==== Sys2Proof/Machine/Ofb.lean ====
section
/-! DEFINITION. OFB (spec 45_ofb.md): one procedure for both directions. -/

namespace Sys2Proof.Machine

open Sys2Proof

/-- The block step of OFB (R180, R181): the new seed is the primitive's output. -/
def ofbBlock (p : Platform) (x : BlockIn) : Except BlockStop BlockOut :=
  match prim p .enc x.alg x.key x.cv with
  | .error e => .error (.raises e)
  | .ok seed => .ok { out := xorBlock x.msg seed, cv := seed, ctrr := x.ctrr }

/-- `OFB.ENC` (R180). -/
def execOfbEnc (a : Alg) (s : State) : Host.Outcome State Fault Refusal :=
  command ⟨.ofb, .encrypt, a⟩ (ofbBlock Config.platform) s

/-- `OFB.DEC` (R181). -/
def execOfbDec (a : Alg) (s : State) : Host.Outcome State Fault Refusal :=
  command ⟨.ofb, .decrypt, a⟩ (ofbBlock Config.platform) s

end Sys2Proof.Machine
end

