-- ==== Sys2Proof/Machine/Dispatch.lean ====
section
/-! DEFINITION. One arm per command (spec opcode_table.json, R83). -/

namespace Sys2Proof.Machine

open Sys2Proof

def exec (i : Instr) (s : State) : Host.Outcome State Fault Refusal :=
  match i with
  | .ecbEnc a => Sys2Proof.Machine.execEcbEnc a s
  | .cbcEnc a => Sys2Proof.Machine.execCbcEnc a s
  | .cfbEnc a => Sys2Proof.Machine.execCfbEnc a s
  | .ofbEnc a => Sys2Proof.Machine.execOfbEnc a s
  | .ctrEnc a => Sys2Proof.Machine.execCtrEnc a s
  | .fb5Enc a => Sys2Proof.Machine.execFb5Enc a s
  | .fb6Enc a => Sys2Proof.Machine.execFb6Enc a s
  | .fb7Enc a => Sys2Proof.Machine.execFb7Enc a s
  | .ecbDec a => Sys2Proof.Machine.execEcbDec a s
  | .cbcDec a => Sys2Proof.Machine.execCbcDec a s
  | .cfbDec a => Sys2Proof.Machine.execCfbDec a s
  | .ofbDec a => Sys2Proof.Machine.execOfbDec a s
  | .ctrDec a => Sys2Proof.Machine.execCtrDec a s
  | .fb5Dec a => Sys2Proof.Machine.execFb5Dec a s
  | .fb6Dec a => Sys2Proof.Machine.execFb6Dec a s
  | .fb7Dec a => Sys2Proof.Machine.execFb7Dec a s

end Sys2Proof.Machine
end

