-- ==== Sys2Proof/Machine/HostPort.lean ====
section
/-! DEFINITION. The host operations other than `Start` (spec 20_memory.md R52, 70_reset_and_hazards.md R280). -/

namespace Sys2Proof.Machine

open Sys2Proof

/-- Whether a length is within a capacity; `none` is unbounded (R7, D13). -/
def fits (cap : Option Nat) (len : Nat) : Bool :=
  match cap with
  | none => true
  | some c => decide (len ≤ c)

/-- The capacity of a raw buffer (R7, R50). -/
def capacity (p : Platform) : RawBuf → Option Nat
  | .rawMsg => p.maxMsgBytes
  | .rawKey => p.maxRawBytes
  | .rawIv => p.maxRawBytes
  | .rawNonce => p.maxRawBytes

/-- `X <- b`, content and length together (R52). -/
def setRaw (x : RawBuf) (b : List Byte) (s : State) : State :=
  match x with
  | .rawMsg => { s with rawMsg := b }
  | .rawKey => { s with rawKey := b }
  | .rawIv => { s with rawIv := b }
  | .rawNonce => { s with rawNonce := b }

/-- `WriteBuf(X, b)` (R52): always enabled; beyond the capacity it is refused and the state does not change (D13, U16). -/
def writeBuf (p : Platform) (x : RawBuf) (b : List Byte) (s : State) : State :=
  if fits (capacity p x) b.length then { setRaw x b s with answer := .nothing }
  else { s with answer := .refusedWrite }

/-- `WriteCmd(c)` (R52). -/
def writeCmd (c : BitVec 5) (s : State) : State := { s with cmd := c, answer := .nothing }

/-- `ReadStatus` (R52): returns `STATUS`, no side effect. -/
def readStatus (s : State) : State := { s with answer := .status s.status }

/-- `ReadOut` (R52): returns `OUT`, no side effect. -/
def readOut (s : State) : State := { s with answer := .out s.out }

/-- `Reset` (R280, R281): every element as right after power-on; the moves to come stay. The engine-private elements are
unspecified there; they take the values of `State.reset`, DESIGN CHOICE (log 5), unsafe for a claim that reads them
before the next START. -/
def hostReset (s : State) : State := { State.reset with agenda := s.agenda }

end Sys2Proof.Machine
end

