-- ==== Sys2Proof/Machine/Sequencer.lean ====
section
/-! DEFINITION. The sequencer (spec 47_dispatcher.md R213, R217): whose move is next, what `Start` does, and which command
the engine is in the middle of. -/

namespace Sys2Proof.Machine

open Sys2Proof

/-- The command whose run is in progress, from the latched `MODE`, `DIR`, `ALG` (R85, R213). -/
def latched (s : State) : Instr :=
  match s.mode, s.dir with
  | .ecb, .encrypt => .ecbEnc s.alg
  | .ecb, .decrypt => .ecbDec s.alg
  | .cbc, .encrypt => .cbcEnc s.alg
  | .cbc, .decrypt => .cbcDec s.alg
  | .cfb, .encrypt => .cfbEnc s.alg
  | .cfb, .decrypt => .cfbDec s.alg
  | .ofb, .encrypt => .ofbEnc s.alg
  | .ofb, .decrypt => .ofbDec s.alg
  | .ctr, .encrypt => .ctrEnc s.alg
  | .ctr, .decrypt => .ctrDec s.alg

/-- `Start` (R52, R211): the one place where `CMD` is decoded; ignored while `ST = BUSY` (D10). -/
def startMove (s : State) : Host.Outcome State Fault Refusal :=
  if s.st = .busy then .next { s with answer := .nothing }
  else exec (decodeCmd s.cmd) { s with answer := .nothing }

/-- A move of the host (R52). -/
def hostMove (op : HostOp) (s : State) : Host.Outcome State Fault Refusal :=
  match op with
  | .writeBuf x b => .next (writeBuf Config.platform x b s)
  | .writeCmd c => .next (writeCmd c s)
  | .start => startMove s
  | .readStatus => .next (readStatus s)
  | .readOut => .next (readOut s)
  | .reset => .next (hostReset s)

/-- A move of the engine: the next step of the run in progress (R213, R217). In `IDLE`, `DONE` and `ERROR` no engine step
is enabled and all state is kept (R250, R265); DESIGN CHOICE (log 16): such a move changes nothing; safe. -/
def engineMove (s : State) : Host.Outcome State Fault Refusal :=
  if s.st = .busy then exec (latched s) s else .next s

/-- The next move of the agenda; with none left the engine moves (R12, R218; log 2). -/
def nextMove (s : State) : Host.Outcome State Fault Refusal :=
  match s.agenda with
  | [] => engineMove s
  | .engine :: rest => engineMove { s with agenda := rest }
  | .host op :: rest => hostMove op { s with agenda := rest }

/-- The command word written to `CMD` and `Start` as the next move, on a block that is not busy. -/
def presentCommand (c : BitVec 5) (s : State) : State :=
  { s with
    cmd := c
    status := if s.st = .busy then packStatus .idle .none else s.status
    agenda := .host .start :: s.agenda }

end Sys2Proof.Machine
end

