-- ==== Sys2Proof/Machine/Step.lean ====
section
/-! DEFINITION. One step of the machine. -/

namespace Sys2Proof.Machine

open Sys2Proof

/-- One move of the host or of the engine (spec R12, R58). -/
def step (s : State) : Host.Outcome State Fault Refusal := nextMove s

/-- `s` with the table word's command in `CMD` and `Start` as its next move (log 14). A word that is no command leaves `s`
as it is. -/
def State.withFetchWord (s : State) (nbits w : Nat) : State :=
  match decodeTableWord nbits w with
  | some i => presentCommand (encode i) s
  | none => s

end Sys2Proof.Machine
end

