-- ==== Sys2Proof/Machine/Datapath.lean ====
section
/-! DEFINITION. The one datapath with its multiplexers (spec 41_cipher_adapter.md R136, 47_dispatcher.md R214): the
structural view of the ten block steps. The per-command definitions govern; that the two agree is stated in the
obligations. -/

namespace Sys2Proof.Machine

open Sys2Proof

/-- The operation selector (R136): `DEC` is used only by `ECB.DEC` and `CBC.DEC`. -/
def opOf : Mode → Dir → PrimOp
  | .ecb, .encrypt => .enc
  | .ecb, .decrypt => .dec
  | .cbc, .encrypt => .enc
  | .cbc, .decrypt => .dec
  | .cfb, .encrypt => .enc
  | .cfb, .decrypt => .enc
  | .ofb, .encrypt => .enc
  | .ofb, .decrypt => .enc
  | .ctr, .encrypt => .enc
  | .ctr, .decrypt => .enc

/-- The primitive input `x` (R136, R214). -/
def inputOf (mode : Mode) (dir : Dir) (x : BlockIn) : Block :=
  match mode, dir with
  | .ecb, .encrypt => x.msg
  | .ecb, .decrypt => x.msg
  | .cbc, .encrypt => xorBlock x.msg x.cv
  | .cbc, .decrypt => x.msg
  | .cfb, .encrypt => x.cv
  | .cfb, .decrypt => x.cv
  | .ofb, .encrypt => x.cv
  | .ofb, .decrypt => x.cv
  | .ctr, .encrypt => x.ctrr
  | .ctr, .decrypt => x.ctrr

/-- The output block, from the primitive's answer `y` (R214). -/
def outputOf (mode : Mode) (dir : Dir) (x : BlockIn) (y : Block) : Block :=
  match mode, dir with
  | .ecb, .encrypt => y
  | .ecb, .decrypt => y
  | .cbc, .encrypt => y
  | .cbc, .decrypt => xorBlock y x.cv
  | .cfb, .encrypt => xorBlock x.msg y
  | .cfb, .decrypt => xorBlock x.msg y
  | .ofb, .encrypt => xorBlock x.msg y
  | .ofb, .decrypt => xorBlock x.msg y
  | .ctr, .encrypt => xorBlock x.msg y
  | .ctr, .decrypt => xorBlock x.msg y

/-- The update of `CV` (R214). -/
def cvOf (mode : Mode) (dir : Dir) (x : BlockIn) (y : Block) : Block :=
  match mode, dir with
  | .ecb, .encrypt => x.cv
  | .ecb, .decrypt => x.cv
  | .cbc, .encrypt => y
  | .cbc, .decrypt => x.msg
  | .cfb, .encrypt => xorBlock x.msg y
  | .cfb, .decrypt => x.msg
  | .ofb, .encrypt => y
  | .ofb, .decrypt => y
  | .ctr, .encrypt => x.cv
  | .ctr, .decrypt => x.cv

/-- The update of `CTRR` (R214): `ctrinc` in CTR, none elsewhere. -/
def ctrrOf (mode : Mode) (r : Block) : Option Block :=
  match mode with
  | .ecb => some r
  | .cbc => some r
  | .cfb => some r
  | .ofb => some r
  | .ctr => ctrinc r

/-- One block through the datapath (R214): at most one XOR, exactly one request. -/
def datapath (p : Platform) (mode : Mode) (dir : Dir) (x : BlockIn) : Except BlockStop BlockOut :=
  match prim p (opOf mode dir) x.alg x.key (inputOf mode dir x) with
  | .error e => .error (.raises e)
  | .ok y =>
    match ctrrOf mode x.ctrr with
    | none => .error (.noMeaning .counterByteAbove127)
    | some r => .ok { out := outputOf mode dir x y, cv := cvOf mode dir x y, ctrr := r }

end Sys2Proof.Machine
end

