-- ==== Sys2Proof/Machine/Run.lean ====
section
/-! DEFINITION. A whole run as one function (spec 47_dispatcher.md R213, R219), the host's call of it (R89, R210) and the
host-side function `STRIP` (R222). -/

namespace Sys2Proof.Machine

open Sys2Proof

/-- The block-step dispatch table (R213). -/
def blockOf (p : Platform) : Mode → Dir → BlockIn → Except BlockStop BlockOut
  | .ecb, .encrypt => ecbEncBlock p
  | .ecb, .decrypt => ecbDecBlock p
  | .cbc, .encrypt => cbcEncBlock p
  | .cbc, .decrypt => cbcDecBlock p
  | .cfb, .encrypt => cfbEncBlock p
  | .cfb, .decrypt => cfbDecBlock p
  | .ofb, .encrypt => ofbBlock p
  | .ofb, .decrypt => ofbBlock p
  | .ctr, .encrypt => ctrBlock p
  | .ctr, .decrypt => ctrBlock p

/-- The blocks of a run in ascending order, the chaining registers threaded through; the first failure ends it (R246). -/
def runBlocks (f : BlockIn → Except BlockStop BlockOut) (alg : Alg) (key : List Byte) :
    List Block → Block → Block → Except BlockStop (List Block)
  | [], _, _ => .ok []
  | m :: ms, cv, ctrr =>
    match f ⟨alg, key, m, cv, ctrr⟩ with
    | .error e => .error e
    | .ok w =>
      match runBlocks f alg key ms w.cv w.ctrr with
      | .error e => .error e
      | .ok os => .ok (w.out :: os)

/-- `run(message, key, iv, nonce, alg, mode, dir)` (R219): bytes, or the error with no bytes. -/
def run (p : Platform) (message key iv nonce : List Byte) (c : Command) : Except BlockStop (List Byte) :=
  match runBlocks (blockOf p c.mode c.dir) c.alg (normalize key (Config.keyBytes c.alg)) (split message)
      (blockOfBytes (normalize iv Config.ivBytes))
      (blockOfBytes (normalize nonce Config.nonceBytes ++ List.replicate Config.ctrBytes Config.ctrInit)) with
  | .error e => .error e
  | .ok os => .ok (join os)

/-- `STRIP` (R222), a host-side function: all trailing zero bytes go, whoever put them there. -/
def strip (b : List Byte) : List Byte := (b.reverse.dropWhile fun x => x == 0).reverse

/-- The host's moves for one call of `run(...)` (R52): four `WriteBuf`, one `WriteCmd`, `Start`, the engine's turns,
`ReadStatus`, `ReadOut`. DESIGN CHOICE (log 21), unsafe where a `WriteBuf` is refused: the moves then go on, on the old
content of that buffer, which the spec does not say; and in place of R52's wait until `DONE` or `ERROR` the engine gets
the `N + 1` turns that a run of this message takes at most (R218), after which both ports are read. -/
def runMoves (message key iv nonce : List Byte) (c : BitVec 5) : List Move :=
  [.host (.writeBuf .rawMsg message), .host (.writeBuf .rawKey key), .host (.writeBuf .rawIv iv),
    .host (.writeBuf .rawNonce nonce), .host (.writeCmd c), .host .start] ++
    List.replicate (ceil8 message.length + 1) .engine ++ [.host .readStatus, .host .readOut]

/-- The moves of a call by its selector strings, if the driver issues a command (R81, R82, R89, D4); its moves are those
of `runMoves`, with the choices of log 21. -/
def callMoves (message key iv nonce : List Byte) (sel : CallSelectors) : Option (List Move) :=
  match sel.cmd with
  | some c => some (runMoves message key iv nonce c)
  | none => none

end Sys2Proof.Machine
end

