-- ==== Sys2Proof/Safety.lean ====
section
/-! DEFINITION. The terms claims are made in: the named properties of the primitive (spec R135), the invariants of the
machine (R37, R32, R195), and what two states have in common for the host or for the engine (R36, R61). -/

namespace Sys2Proof

/-- `PRIM_INVERSE` (R135): each direction undoes the other wherever it answers a Block. -/
def Platform.Inverse (p : Platform) : Prop :=
  ∀ (alg : Alg) (k : List Byte) (b c : Block), k.length = Config.keyBytes alg →
    (p.E alg k b = some c ↔ p.D alg k c = some b)

/-- `PRIM_INJECTIVE` (R135): for fixed `alg` and `k`, `E` is injective on the Blocks where it succeeds. -/
def Platform.Injective (p : Platform) : Prop :=
  ∀ (alg : Alg) (k : List Byte) (b b' c : Block), k.length = Config.keyBytes alg →
    p.E alg k b = some c → p.E alg k b' = some c → b = b'

/-- `PRIM_TOTAL` (R135): neither direction ever answers `PrimErr`. -/
def Platform.Total (p : Platform) : Prop :=
  ∀ (alg : Alg) (k : List Byte) (b : Block), k.length = Config.keyBytes alg →
    (p.E alg k b).isSome ∧ (p.D alg k b).isSome

/-- The nonce half of a register laid out as `CTRR` (R33): bytes 0 to 3. -/
def Block.nonceHalf (r : Block) : List Byte := [r.b0, r.b1, r.b2, r.b3]

/-- The counter half as a base-128 number (R54, R193): byte 4 is the most significant digit. -/
def Block.counterValue (r : Block) : Nat :=
  ((r.b4.toNat * 128 + r.b5.toNat) * 128 + r.b6.toNat) * 128 + r.b7.toNat

namespace Machine

/-- The content of a raw buffer (R52). -/
def State.raw (s : State) : RawBuf → List Byte
  | .rawMsg => s.rawMsg
  | .rawKey => s.rawKey
  | .rawIv => s.rawIv
  | .rawNonce => s.rawNonce

/-- The invariant of R37, with what else holds of the state between steps: which blocks are written (R34), the codes of
`ERR` that never appear (R26), the capacities (R7, R35). What it says of engine-private elements it says once a START has
written them: it rests on no reset value of theirs (log 4). -/
structure State.Inv (s : State) : Prop where
  /-- R37 b, R30: the key has the length of the latched algorithm. -/
  keyLength : s.st ≠ .idle → s.keyn.length = Config.keyBytes s.alg
  /-- R28: `N` is the number of blocks of the Message. -/
  blockCount : s.st ≠ .idle → s.n = s.msg.length
  /-- R37 c, R35. -/
  index : s.st ≠ .idle → s.bi ≤ s.n
  /-- R34: the blocks `OUTB[0] .. OUTB[BI-1]` are written and the rest are not. -/
  written : s.st ≠ .idle → s.outb.map Prod.fst = List.range s.bi
  /-- R37 e. -/
  counter : s.st ≠ .idle → counterInRange s.ctrr = true
  /-- R37 f. -/
  errIff : s.err ≠ .none ↔ s.st = .error
  /-- R26, R242: codes 2 and 3 never appear. -/
  errCode : s.err = .none ∨ s.err = .cipherPrimitiveError
  /-- R37 g, R24. -/
  outLength : s.out.length = if s.st = .done then 8 * s.n else 0
  /-- R217: a run is done only after its last block. -/
  doneAll : s.st = .done → s.bi = s.n
  /-- R22, R23. -/
  capacities : ∀ x, fits (capacity Config.platform x) (s.raw x).length = true
  /-- R35: `N <= ceil(MAX_MSG_BYTES / 8)`. -/
  blockCapacity : s.st ≠ .idle → fits (Config.platform.maxMsgBytes.map ceil8) s.n = true

/-- What the two chaining registers hold between the steps of a run (R32, R33, R162, R172, R182, R195, R198). -/
structure State.Chained (s : State) : Prop where
  /-- CBC and CFB: before block step `i`, `CV` is the IV if `i = 0`, else ciphertext block `i-1`: the output block when
  encrypting, the input block when decrypting. -/
  cipherBlock : s.st ≠ .idle → s.mode = .cbc ∨ s.mode = .cfb →
    some s.cv = if s.bi = 0 then some s.ivn
      else match s.dir with
        | .encrypt => Memory.read s.outb (s.bi - 1)
        | .decrypt => s.msg[s.bi - 1]?
  /-- OFB: `CV` is the IV if `i = 0`, else the seed that output block `i-1` was masked with. -/
  seed : s.st ≠ .idle → s.mode = .ofb →
    if s.bi = 0 then s.cv = s.ivn
    else ∃ m, s.msg[s.bi - 1]? = some m ∧ Memory.read s.outb (s.bi - 1) = some (xorBlock m s.cv)
  /-- ECB and CTR leave `CV` as START set it. -/
  unusedCv : s.st ≠ .idle → s.mode = .ecb ∨ s.mode = .ctr → s.cv = s.ivn
  /-- CTR: the counter half is `ctr128(BI mod 128^4)` (R195). -/
  counter : s.st ≠ .idle → s.mode = .ctr → s.ctrr = ctrAt s.ctrr s.bi
  /-- In every other mode the counter half is as START set it (R33). -/
  unusedCounter : s.st ≠ .idle → s.mode ≠ .ctr → s.ctrr = ctrAt s.ctrr 0

/-- The same to the host (R20 a, R36): the host-visible elements agree, and, while a run is in progress, so does what the
run works on. Engine-private elements outside a run may differ. -/
structure SameToHost (s t : State) : Prop where
  rawMsg : s.rawMsg = t.rawMsg
  rawKey : s.rawKey = t.rawKey
  rawIv : s.rawIv = t.rawIv
  rawNonce : s.rawNonce = t.rawNonce
  cmd : s.cmd = t.cmd
  status : s.status = t.status
  out : s.out = t.out
  agenda : s.agenda = t.agenda
  answer : s.answer = t.answer
  run : s.st = .busy → s = t

/-- The same run (R61): everything the engine works on and everything it has answered agrees; what the host has written
since, and what it will do, may differ. -/
structure SameRun (s t : State) : Prop where
  status : s.status = t.status
  out : s.out = t.out
  alg : s.alg = t.alg
  dir : s.dir = t.dir
  mode : s.mode = t.mode
  n : s.n = t.n
  bi : s.bi = t.bi
  keyn : s.keyn = t.keyn
  ivn : s.ivn = t.ivn
  cv : s.cv = t.cv
  ctrr : s.ctrr = t.ctrr
  msg : s.msg = t.msg
  outb : s.outb = t.outb

end Machine

end Sys2Proof
end

