-- ==== Sys2Proof/Certificates/Slice0/Obligations.lean ====
section
/-! DEFINITION. The statements for the provers: what the spec's numbered rules say of the commands and of the machine. -/

open Sys2Proof Sys2Proof.Machine

/-! ### The command word -/

/-- Every command decodes back from its own byte, whatever follows it, and from its table word; every command is legal
(R83, R86). -/
def Obligations.DecodeOfEncodeIsIdentity : Prop :=
  ∀ (i : Instr) (rest : List Byte),
    i.wf = true ∧ decode (encodeBytes i ++ rest) = .ok (i, rest) ∧ decodeTableWord 8 (encode i).toNat = some i

/-- A byte that decodes is the command's own byte: each word has one meaning (R83); a value of more than five bits is
rejected by name (log 13, the model's choice). -/
def Obligations.EncodeOfDecodeIsIdentity : Prop :=
  (∀ (bs : List Byte) (i : Instr) (rest : List Byte), decode bs = .ok (i, rest) → bs = encodeBytes i ++ rest) ∧
  (∀ (b : Byte) (rest : List Byte), decode (b :: rest) = .error .notFiveBits ↔ 32 ≤ b.toNat)

/-- The opcode map of R83, both columns, as printed. -/
def Obligations.OpcodeMapAsPrinted : Prop :=
  decodeCmd 0x00#5 = .ecbEnc .single ∧ decodeCmd 0x10#5 = .ecbEnc .triple ∧
  decodeCmd 0x01#5 = .cbcEnc .single ∧ decodeCmd 0x11#5 = .cbcEnc .triple ∧
  decodeCmd 0x02#5 = .cfbEnc .single ∧ decodeCmd 0x12#5 = .cfbEnc .triple ∧
  decodeCmd 0x03#5 = .ofbEnc .single ∧ decodeCmd 0x13#5 = .ofbEnc .triple ∧
  decodeCmd 0x04#5 = .ctrEnc .single ∧ decodeCmd 0x14#5 = .ctrEnc .triple ∧
  decodeCmd 0x05#5 = .fb5Enc .single ∧ decodeCmd 0x15#5 = .fb5Enc .triple ∧
  decodeCmd 0x06#5 = .fb6Enc .single ∧ decodeCmd 0x16#5 = .fb6Enc .triple ∧
  decodeCmd 0x07#5 = .fb7Enc .single ∧ decodeCmd 0x17#5 = .fb7Enc .triple ∧
  decodeCmd 0x08#5 = .ecbDec .single ∧ decodeCmd 0x18#5 = .ecbDec .triple ∧
  decodeCmd 0x09#5 = .cbcDec .single ∧ decodeCmd 0x19#5 = .cbcDec .triple ∧
  decodeCmd 0x0A#5 = .cfbDec .single ∧ decodeCmd 0x1A#5 = .cfbDec .triple ∧
  decodeCmd 0x0B#5 = .ofbDec .single ∧ decodeCmd 0x1B#5 = .ofbDec .triple ∧
  decodeCmd 0x0C#5 = .ctrDec .single ∧ decodeCmd 0x1C#5 = .ctrDec .triple ∧
  decodeCmd 0x0D#5 = .fb5Dec .single ∧ decodeCmd 0x1D#5 = .fb5Dec .triple ∧
  decodeCmd 0x0E#5 = .fb6Dec .single ∧ decodeCmd 0x1E#5 = .fb6Dec .triple ∧
  decodeCmd 0x0F#5 = .fb7Dec .single ∧ decodeCmd 0x1F#5 = .fb7Dec .triple ∧
  (∀ a : Alg,
    (Instr.ecbEnc a).command = ⟨.ecb, .encrypt, a⟩ ∧ (Instr.ecbDec a).command = ⟨.ecb, .decrypt, a⟩ ∧
    (Instr.fb5Enc a).command = ⟨.ecb, .encrypt, a⟩ ∧ (Instr.fb5Dec a).command = ⟨.ecb, .decrypt, a⟩ ∧
    (Instr.fb6Enc a).command = ⟨.ecb, .encrypt, a⟩ ∧ (Instr.fb6Dec a).command = ⟨.ecb, .decrypt, a⟩ ∧
    (Instr.fb7Enc a).command = ⟨.ecb, .encrypt, a⟩ ∧ (Instr.fb7Dec a).command = ⟨.ecb, .decrypt, a⟩ ∧
    (Instr.cbcEnc a).command = ⟨.cbc, .encrypt, a⟩ ∧ (Instr.cbcDec a).command = ⟨.cbc, .decrypt, a⟩ ∧
    (Instr.cfbEnc a).command = ⟨.cfb, .encrypt, a⟩ ∧ (Instr.cfbDec a).command = ⟨.cfb, .decrypt, a⟩ ∧
    (Instr.ofbEnc a).command = ⟨.ofb, .encrypt, a⟩ ∧ (Instr.ofbDec a).command = ⟨.ofb, .decrypt, a⟩ ∧
    (Instr.ctrEnc a).command = ⟨.ctr, .encrypt, a⟩ ∧ (Instr.ctrDec a).command = ⟨.ctr, .decrypt, a⟩)

/-- R85: what START computes from the sampled `CMD`; no later step of the run reads `CMD`, and no step of a run but a
`Reset` changes what was latched. -/
def Obligations.StartLatchesTheFields : Prop :=
  (∀ (s : State) (rest : List Move), s.st ≠ .busy → s.agenda = .host .start :: rest →
    ∃ t : State, step s = .next t ∧
      t.alg = (if s.cmd.getLsbD 4 = true then .triple else .single) ∧
      t.dir = (if s.cmd.getLsbD 3 = true then .decrypt else .encrypt) ∧
      t.mode = (match (s.cmd.extractLsb' 0 3).toNat with
        | 1 => .cbc
        | 2 => .cfb
        | 3 => .ofb
        | 4 => .ctr
        | _ => .ecb)) ∧
  (∀ (s t : State) (c : BitVec 5), engineMove s = .next t →
    engineMove { s with cmd := c } = .next { t with cmd := c }) ∧
  (∀ s t : State, s.st = .busy → step s = .next t → s.agenda.head? ≠ some (.host .reset) →
    t.alg = s.alg ∧ t.dir = s.dir ∧ t.mode = s.mode)

/-- R86: MODESEL 5, 6 and 7 start exactly the run that MODESEL 0 starts, with no difference outside `CMD` itself. -/
def Obligations.FallbackCodesRunEcb : Prop :=
  ∀ (s : State) (rest : List Move) (c : BitVec 5), 5 ≤ (c.extractLsb' 0 3).toNat → s.st ≠ .busy →
    s.agenda = .host .start :: rest →
    ∃ t : State, t.mode = .ecb ∧ step { s with cmd := c } = .next { t with cmd := c } ∧
      step { s with cmd := c &&& 0b11000#5 } = .next { t with cmd := c &&& 0b11000#5 }

/-- R81, R82: the driver issues a command exactly for the two direction and the two algorithm strings; an unrecognized
mode string is ECB. -/
def Obligations.SelectorStringsIssueCommands : Prop :=
  ∀ c : CallSelectors, c.cmd.isSome = c.wf ∧
    ∀ w : BitVec 5, c.cmd = some w → fieldsOf w =
      ⟨if c.mode = "CBC" then .cbc else if c.mode = "CFB" then .cfb else if c.mode = "OFB" then .ofb
        else if c.mode = "CTR" then .ctr else .ecb,
       if c.direction = "decrypt" then .decrypt else .encrypt,
       if c.algorithm = "triple" then .triple else .single⟩

/-! ### A step runs the selected command -/

/-- `Start` outside a run executes the command in `CMD`; the engine's move in a run executes the latched command; an
empty agenda is the engine's move (R61, R85, R213; the agenda is log 2, the model's choice). -/
def Obligations.StepRunsTheSelectedCommand : Prop :=
  (∀ (s : State) (rest : List Move) (i : Instr), decode [s.cmd.setWidth 8] = .ok (i, []) → s.st ≠ .busy →
    s.agenda = .host .start :: rest → step s = exec i { s with agenda := rest, answer := .nothing }) ∧
  (∀ (s : State), s.st = .busy →
    (latched s).command = ⟨s.mode, s.dir, s.alg⟩ ∧
    (s.agenda = [] → step s = exec (latched s) s) ∧
    (∀ rest, s.agenda = .engine :: rest → step s = exec (latched s) { s with agenda := rest }))

/-- A presented table word is the very next thing to run, from any state (log 14, the model's choice of loading). -/
def Obligations.PresentedCommandRunsNext : Prop :=
  ∀ (i : Instr) (s u : State), u = s.withFetchWord 8 (encode i).toNat →
    step u = exec i { u with agenda := s.agenda, answer := .nothing } ∧ u.st ≠ .busy ∧ u.cmd = encode i ∧
    ∀ x, u.raw x = s.raw x

/-- Every command, outside a run, completes its START: the next state in full (R211, R88). What is not named is
unchanged. -/
def Obligations.EveryCommandStartsARun : Prop :=
  ∀ (i : Instr) (s : State), s.st ≠ .busy →
    exec i s = .next { s with
      alg := i.command.alg
      dir := i.command.dir
      mode := i.command.mode
      msg := split s.rawMsg
      n := ceil8 s.rawMsg.length
      keyn := normalize s.rawKey (if i.command.alg = .triple then 24 else 8)
      ivn := zext8 (normalize s.rawIv 8)
      cv := zext8 (normalize s.rawIv 8)
      ctrr := zext8 (normalize s.rawNonce 4 ++ [0, 0, 0, 0])
      outb := []
      bi := 0
      out := []
      status := 0b0001#4 }

/-- R211: `Start`, both while a run is in progress and outside one. -/
def Obligations.StartBuildsAFreshEngine : Prop :=
  ∀ (s : State) (rest : List Move), s.agenda = .host .start :: rest →
    step s = .next (if s.st = .busy then { s with agenda := rest, answer := .nothing }
      else { s with
        agenda := rest
        answer := .nothing
        alg := (fieldsOf s.cmd).alg
        dir := (fieldsOf s.cmd).dir
        mode := (fieldsOf s.cmd).mode
        msg := split s.rawMsg
        n := ceil8 s.rawMsg.length
        keyn := normalize s.rawKey (if (fieldsOf s.cmd).alg = .triple then 24 else 8)
        ivn := zext8 (normalize s.rawIv 8)
        cv := zext8 (normalize s.rawIv 8)
        ctrr := zext8 (normalize s.rawNonce 4 ++ [0, 0, 0, 0])
        outb := []
        bi := 0
        out := []
        status := 0b0001#4 })

/-! ### The block steps: the next state in full, so what is not named is unchanged -/

/-- R150: the block step of `ECB.ENC` and of the fallback commands that run it (R86). -/
def Obligations.EcbEncBlockStep : Prop :=
  ∀ (i : Instr) (a : Alg) (s : State) (m : Block),
    i = .ecbEnc a ∨ i = .fb5Enc a ∨ i = .fb6Enc a ∨ i = .fb7Enc a →
    s.st = .busy → s.mode = .ecb → s.dir = .encrypt → s.bi < s.n → s.msg[s.bi]? = some m →
    exec i s = .next (match Config.E s.alg s.keyn m with
      | some c => { s with outb := Memory.write s.outb s.bi c, bi := s.bi + 1 }
      | none => { s with out := [], status := 0b0111#4 })

/-- R151: the block step of `ECB.DEC` and of the fallback commands that run it (R86). -/
def Obligations.EcbDecBlockStep : Prop :=
  ∀ (i : Instr) (a : Alg) (s : State) (m : Block),
    i = .ecbDec a ∨ i = .fb5Dec a ∨ i = .fb6Dec a ∨ i = .fb7Dec a →
    s.st = .busy → s.mode = .ecb → s.dir = .decrypt → s.bi < s.n → s.msg[s.bi]? = some m →
    exec i s = .next (match Config.D s.alg s.keyn m with
      | some b => { s with outb := Memory.write s.outb s.bi b, bi := s.bi + 1 }
      | none => { s with out := [], status := 0b0111#4 })

/-- R160: the block step of `CBC.ENC`. -/
def Obligations.CbcEncBlockStep : Prop :=
  ∀ (a : Alg) (s : State) (m : Block),
    s.st = .busy → s.mode = .cbc → s.dir = .encrypt → s.bi < s.n → s.msg[s.bi]? = some m →
    exec (.cbcEnc a) s = .next (match Config.E s.alg s.keyn (xorBlock m s.cv) with
      | some c => { s with outb := Memory.write s.outb s.bi c, cv := c, bi := s.bi + 1 }
      | none => { s with out := [], status := 0b0111#4 })

/-- R161: the block step of `CBC.DEC`; the chaining value is the block consumed. -/
def Obligations.CbcDecBlockStep : Prop :=
  ∀ (a : Alg) (s : State) (m : Block),
    s.st = .busy → s.mode = .cbc → s.dir = .decrypt → s.bi < s.n → s.msg[s.bi]? = some m →
    exec (.cbcDec a) s = .next (match Config.D s.alg s.keyn m with
      | some middle => { s with outb := Memory.write s.outb s.bi (xorBlock middle s.cv), cv := m, bi := s.bi + 1 }
      | none => { s with out := [], status := 0b0111#4 })

/-- R170: the block step of `CFB.ENC`. -/
def Obligations.CfbEncBlockStep : Prop :=
  ∀ (a : Alg) (s : State) (m : Block),
    s.st = .busy → s.mode = .cfb → s.dir = .encrypt → s.bi < s.n → s.msg[s.bi]? = some m →
    exec (.cfbEnc a) s = .next (match Config.E s.alg s.keyn s.cv with
      | some k => { s with
          outb := Memory.write s.outb s.bi (xorBlock m k), cv := xorBlock m k, bi := s.bi + 1 }
      | none => { s with out := [], status := 0b0111#4 })

/-- R171: the block step of `CFB.DEC`: `E`, not `D`; the chaining value is the block consumed. -/
def Obligations.CfbDecBlockStep : Prop :=
  ∀ (a : Alg) (s : State) (m : Block),
    s.st = .busy → s.mode = .cfb → s.dir = .decrypt → s.bi < s.n → s.msg[s.bi]? = some m →
    exec (.cfbDec a) s = .next (match Config.E s.alg s.keyn s.cv with
      | some k => { s with outb := Memory.write s.outb s.bi (xorBlock m k), cv := m, bi := s.bi + 1 }
      | none => { s with out := [], status := 0b0111#4 })

/-- R180, R181: the block step of `OFB.ENC` and `OFB.DEC`, in either direction. -/
def Obligations.OfbBlockStep : Prop :=
  ∀ (i : Instr) (a : Alg) (s : State) (m : Block), i = .ofbEnc a ∨ i = .ofbDec a →
    s.st = .busy → s.mode = .ofb → s.bi < s.n → s.msg[s.bi]? = some m →
    exec i s = .next (match Config.E s.alg s.keyn s.cv with
      | some k => { s with outb := Memory.write s.outb s.bi (xorBlock m k), cv := k, bi := s.bi + 1 }
      | none => { s with out := [], status := 0b0111#4 })

/-- R190, R191: the block step of `CTR.ENC` and `CTR.DEC`, in either direction: the counter half counts one on, in base
128, after its use. With a counter byte above 127 the spec gives `ctrinc` no meaning (R192 b): the step is then refused
(log 9, the model's choice), unless the request failed first. -/
def Obligations.CtrBlockStep : Prop :=
  ∀ (i : Instr) (a : Alg) (s : State) (m : Block), i = .ctrEnc a ∨ i = .ctrDec a →
    s.st = .busy → s.mode = .ctr → s.bi < s.n → s.msg[s.bi]? = some m →
    (counterInRange s.ctrr = true →
      exec i s = .next (match Config.E s.alg s.keyn s.ctrr with
        | some k => { s with
            outb := Memory.write s.outb s.bi (xorBlock m k)
            ctrr := ctrAt s.ctrr (s.ctrr.counterValue + 1)
            bi := s.bi + 1 }
        | none => { s with out := [], status := 0b0111#4 })) ∧
    (counterInRange s.ctrr = false →
      exec i s = (match Config.E s.alg s.keyn s.ctrr with
        | some _ => .refused .counterByteAbove127
        | none => .next { s with out := [], status := 0b0111#4 }))

/-- What one engine step of any command leaves unchanged in a run (R39, R213, R216, R250). -/
def Obligations.RunStepFrame : Prop :=
  ∀ (i : Instr) (s t : State), s.st = .busy → exec i s = .next t →
    (∀ x, t.raw x = s.raw x) ∧ t.cmd = s.cmd ∧ t.agenda = s.agenda ∧ t.answer = s.answer ∧
    t.alg = s.alg ∧ t.dir = s.dir ∧ t.mode = s.mode ∧ t.n = s.n ∧ t.keyn = s.keyn ∧ t.ivn = s.ivn ∧ t.msg = s.msg ∧
    t.ctrr.nonceHalf = s.ctrr.nonceHalf ∧
    (∀ j, j ≠ s.bi → Memory.read t.outb j = Memory.read s.outb j) ∧
    (s.mode = .ecb ∨ s.mode = .ctr → t.cv = s.cv) ∧ (s.mode ≠ .ctr → t.ctrr = s.ctrr) ∧
    (t.st = .busy → t.status = s.status ∧ t.out = s.out ∧ t.bi = s.bi + 1) ∧
    (t.st ≠ .busy → t.outb = s.outb ∧ t.cv = s.cv ∧ t.ctrr = s.ctrr ∧ t.bi = s.bi)

/-- A command asked to go on while another one is latched is refused by name: its block step is not enabled (log 11, the
model's choice). -/
def Obligations.OtherCommandIsRefused : Prop :=
  ∀ (i : Instr) (s : State), s.st = .busy →
    (s.mode ≠ i.command.mode ∨ (s.dir ≠ i.command.dir ∧ s.mode ≠ .ofb ∧ s.mode ≠ .ctr)) →
    exec i s = .refused .otherCommandInProgress

/-- `OUTB` (R34): a block reads as what was last written there, every other index as before, and the canonical form is
kept. -/
def Obligations.BlockBufferReadsBack : Prop :=
  ∀ (m : BlockBuf) (i : Nat) (v : Block),
    Memory.read (Memory.write m i v) i = some v ∧
    (∀ j, j ≠ i → Memory.read (Memory.write m i v) j = Memory.read m j) ∧
    (Memory.wf m → Memory.wf (Memory.write m i v))

/-- R216: at `BI = N` a command finishes: `OUT` is the join of the `N` written blocks, `ST = DONE`, `ERR = NONE`; it
cannot fail, and no engine step is enabled afterwards. -/
def Obligations.FinishDeliversTheJoin : Prop :=
  ∀ (i : Instr) (s : State), s.Inv → s.st = .busy → s.bi = s.n →
    inProgress i.command.mode i.command.dir s = true →
    ∃ (bs : List Block) (t : State), bs.length = s.n ∧ (∀ j, j < s.n → Memory.read s.outb j = bs[j]?) ∧
      t = { s with out := join bs, status := 0b0010#4 } ∧ exec i s = .next t ∧ engineMove t = .next t ∧
      (s.n = 0 → t.out = [])

/-- R250: the error entry of a block step that raises, whatever the pipeline and whichever the error: none of the step's
writes happen, `OUT` is emptied, the code is recorded, and no engine step is enabled afterwards. -/
def Obligations.ErrorEntryIsPrecise : Prop :=
  ∀ (f : BlockIn → Except BlockStop BlockOut) (s t : State) (m : Block) (e : EngineError),
    s.bi < s.n → s.msg[s.bi]? = some m → f ⟨s.alg, s.keyn, m, s.cv, s.ctrr⟩ = .error (.raises e) →
    t = { s with
      out := []
      status := (match e with
        | .cipherPrimitiveError => 0b0111#4
        | .lengthMismatch _ _ => 0b1011#4) } →
    advance f s = .next t ∧ engineMove t = .next t

/-- R214: the ten per-command block steps are instances of the one datapath with its multiplexers. -/
def Obligations.DatapathMultiplexersAgree : Prop :=
  ∀ (p : Platform) (mode : Mode) (dir : Dir) (x : BlockIn), blockOf p mode dir x = datapath p mode dir x

/-- R136: `DEC` is used only by `ECB.DEC` and `CBC.DEC`, and those use nothing else: a run of any other command does not
depend on `D`, a run of these two does not depend on `E`. No run depends on the capacities or on `HOST_MAP` (R7, R51). -/
def Obligations.EachCommandUsesOneDirection : Prop :=
  ∀ (p q : Platform) (m k iv no : List Byte) (c : Command),
    (if c.dir = .decrypt ∧ (c.mode = .ecb ∨ c.mode = .cbc) then p.D = q.D else p.E = q.E) →
    run p m k iv no c = run q m k iv no c

/-! ### The host's operations -/

/-- R52: `WriteBuf` within the capacity writes content and length and nothing else; beyond it, it is refused and nothing
changes; `WriteCmd` writes `CMD` and nothing else. -/
def Obligations.HostWritesTakeEffect : Prop :=
  (∀ (s : State) (rest : List Move) (x : RawBuf) (b : List Byte), s.agenda = .host (.writeBuf x b) :: rest →
    ∃ t : State, step s = .next t ∧ SameRun s t ∧ t.cmd = s.cmd ∧ t.agenda = rest ∧
      (∀ y, y ≠ x → t.raw y = s.raw y) ∧
      (if fits (capacity Config.platform x) b.length = true then t.raw x = b ∧ t.answer = .nothing
        else t.raw x = s.raw x ∧ t.answer = .refusedWrite)) ∧
  (∀ (s : State) (rest : List Move) (c : BitVec 5), s.agenda = .host (.writeCmd c) :: rest →
    step s = .next { s with agenda := rest, cmd := c, answer := .nothing })

/-- R52, R58: `ReadStatus` and `ReadOut` return `STATUS` and `OUT` and change nothing; what `ReadOut` returns is empty
unless `ST = DONE` (R24), and then `8 * N` bytes. -/
def Obligations.HostReadsHaveNoSideEffect : Prop :=
  ∀ (s : State) (rest : List Move),
    (s.agenda = .host .readStatus :: rest →
      step s = .next { s with agenda := rest, answer := .status s.status }) ∧
    (s.agenda = .host .readOut :: rest →
      step s = .next { s with agenda := rest, answer := .out s.out } ∧
      (s.Inv → (s.st ≠ .done → s.out = []) ∧ (s.st = .done → s.out.length = 8 * s.n)))

/-- R280: `Reset`, from any state, sets every host-visible element, to what it is after a power-on reset; what it leaves
in engine-private elements is not said. -/
def Obligations.ResetFromAnyState : Prop :=
  ∀ (s : State) (rest : List Move), s.agenda = .host .reset :: rest →
    ∃ t : State, step s = .next t ∧ t.st = .idle ∧ t.err = .none ∧ t.cmd = 0b00000#5 ∧ (∀ x, t.raw x = []) ∧
      t.out = [] ∧ t.agenda = rest ∧ SameToHost t { State.reset with agenda := rest }

/-- R38, R283: the host-visible elements at reset, and a `Start` in that state: a legal run that is done at once, with
an empty `OUT`. -/
def Obligations.StartAfterResetIsLegal : Prop :=
  (∀ x, State.reset.raw x = []) ∧ State.reset.cmd = 0b00000#5 ∧ State.reset.st = .idle ∧ State.reset.err = .none ∧
  State.reset.out = [] ∧
  ∃ t : State, Sys2Proof.core.run 2 { State.reset with agenda := [.host .start] } = .next t ∧ t.st = .done ∧
    t.err = .none ∧ t.out = [] ∧ t.mode = .ecb ∧ t.dir = .encrypt ∧ t.alg = .single ∧
    t.keyn = [0, 0, 0, 0, 0, 0, 0, 0]

/-! ### The machine as a whole -/

/-- R217: `ST` and `BI` move only as the table lists. -/
def Obligations.StatusMovesOnlyAsListed : Prop :=
  ∀ s t : State, step s = .next t →
    (s.st ≠ .busy ∧ s.agenda.head? = some (.host .start) ∧ t.st = .busy ∧ t.bi = 0) ∨
    (s.st = .busy ∧ (s.agenda = [] ∨ s.agenda.head? = some .engine) ∧ s.bi < s.n ∧ t.st = .busy ∧ t.bi = s.bi + 1) ∨
    (s.st = .busy ∧ (s.agenda = [] ∨ s.agenda.head? = some .engine) ∧ s.bi < s.n ∧ t.st = .error ∧ t.bi = s.bi) ∨
    (s.st = .busy ∧ (s.agenda = [] ∨ s.agenda.head? = some .engine) ∧ s.bi = s.n ∧ t.st = .done ∧ t.bi = s.bi) ∨
    (s.agenda.head? = some (.host .reset) ∧ t.st = .idle) ∨
    (t.st = s.st ∧ t.bi = s.bi ∧ s.agenda.head? ≠ some (.host .reset) ∧
      ¬(s.st ≠ .busy ∧ s.agenda.head? = some (.host .start)) ∧
      ¬(s.st = .busy ∧ (s.agenda = [] ∨ s.agenda.head? = some .engine)))

/-- R37: the invariant is kept by every step, from every state that has it. Clause (e) is the spec's own inference
("derived: from rule R33"). -/
def Obligations.EveryStepKeepsInv : Prop :=
  ∀ s t : State, s.Inv → step s = .next t → t.Inv

/-- R32, R195: what the chaining register and the counter hold between steps is kept by every step. -/
def Obligations.EveryStepKeepsChaining : Prop :=
  ∀ s t : State, s.Inv → s.Chained → step s = .next t → t.Chained

/-- R37, R32: both invariants hold at reset. -/
def Obligations.InvariantsHoldAtReset : Prop :=
  State.reset.Inv ∧ State.reset.Chained

/-- R218, the spec's own inference: no state is stuck: from every state with the invariant the next move, whoever's it is, gives a next state,
never a fault or a refusal. -/
def Obligations.NoStepStops : Prop :=
  ∀ s : State, s.Inv → ∃ t : State, step s = .next t

/-- R33, R192 a: the nonce half is loaded by START and modified by nothing else short of a reset. -/
def Obligations.NonceHalfNeverModified : Prop :=
  ∀ s t : State, step s = .next t → s.agenda.head? ≠ some (.host .reset) →
    t.ctrr.nonceHalf =
      if s.st ≠ .busy ∧ s.agenda.head? = some (.host .start) then normalize s.rawNonce 4 else s.ctrr.nonceHalf

/-- R36, R38: engine-private elements are hidden from the host: states that agree on what the host sees (and on the run,
while one is in progress) go on agreeing. In particular nothing the host sees depends on the model's reset values of
engine-private elements (log 4). -/
def Obligations.PrivateElementsUnseen : Prop :=
  ∀ s t u : State, SameToHost s t → step s = .next u → ∃ v : State, step t = .next v ∧ SameToHost u v

/-- R61: in a run no host operation but `Reset` reaches what the run works on, and the engine's next step is the same
whatever the host has written since. -/
def Obligations.HostCannotDisturbARun : Prop :=
  (∀ (s : State) (op : HostOp) (rest : List Move), s.st = .busy → s.agenda = .host op :: rest → op ≠ .reset →
    ∃ t : State, step s = .next t ∧ SameRun s t) ∧
  (∀ s t u : State, SameRun s t → engineMove s = .next u → ∃ v : State, engineMove t = .next v ∧ SameRun u v)

/-- R60, R61, U20: a run's steps give the same whatever host operations, short of `Start` and `Reset`, fall between them
and wherever they fall. -/
def Obligations.InterleavingDoesNotMatter : Prop :=
  ∀ (s t : State) (moves : List Move), s.st = .busy →
    (∀ m ∈ moves, m ≠ .host .reset ∧ m ≠ .host .start) →
    Sys2Proof.core.run moves.length { s with agenda := moves } = .next t →
    ∃ u : State, Sys2Proof.core.run (moves.count .engine) { s with agenda := [] } = .next u ∧ SameRun t u

/-- R218, the spec's own inference ("derived: from rules R211, R213, R216"): a run ends, done or in error, within its
remaining blocks and one step more. -/
def Obligations.RunEndsWithinItsBlocks : Prop :=
  ∀ s : State, s.Inv → s.st = .busy → s.agenda = [] →
    ∃ (k : Nat) (t : State), k ≤ s.n - s.bi + 1 ∧ Sys2Proof.core.run k s = .next t ∧ (t.st = .done ∨ t.st = .error)

/-- R219: the small steps of a started run, START, its blocks and FINISH, end as the one function `run` says: the same
bytes, or the same failure with no bytes. A run that fails early takes fewer steps than the `N + 2` counted here; that
the engine's turns after its error entry change nothing is log 16, the model's choice. -/
def Obligations.StartedRunGivesWhatRunSays : Prop :=
  ∀ s : State, s.st ≠ .busy → s.agenda = [.host .start] →
    ∃ t : State, Sys2Proof.core.run (ceil8 s.rawMsg.length + 2) s = .next t ∧ t.cmd = s.cmd ∧
      (∀ x, t.raw x = s.raw x) ∧
      match run Config.platform s.rawMsg s.rawKey s.rawIv s.rawNonce (fieldsOf s.cmd) with
      | .ok bytes => t.st = .done ∧ t.err = .none ∧ t.out = bytes
      | .error (.raises e) => e = .cipherPrimitiveError ∧ t.st = .error ∧ t.err = .cipherPrimitiveError ∧ t.out = []
      | .error (.noMeaning _) => False

/-- R110 a, R136, D19, D27: an empty message succeeds with an empty output, whatever the command, key and primitive. -/
def Obligations.EmptyMessageAlwaysSucceeds : Prop :=
  ∀ s : State, s.st ≠ .busy → s.agenda = [.host .start] → s.rawMsg = [] →
    ∃ t : State, Sys2Proof.core.run 2 s = .next t ∧ t.st = .done ∧ t.err = .none ∧ t.out = []

/-! ### The counter -/

/-- R192: one increment of a counter half in range adds one modulo `128^4`, stays in range and leaves the nonce. -/
def Obligations.CounterIncrementAddsOne : Prop :=
  ∀ r : Block, counterInRange r = true →
    ∃ r' : Block, ctrinc r = some r' ∧ counterInRange r' = true ∧ r'.nonceHalf = r.nonceHalf ∧
      r'.counterValue = (r.counterValue + 1) % 128 ^ 4

/-- R193, the spec's own inference from R192 ("by induction on `t`"): `t` increments from counter zero give
`ctr128(t mod 128^4)`, and its eight examples. -/
def Obligations.CounterClosedForm : Prop :=
  (∀ (r : Block) (t : Nat),
    Nat.rec (some (ctrAt r 0)) (fun _ o => o.bind ctrinc) t = some (ctrAt r (t % 128 ^ 4))) ∧
  (∀ r : Block, ctrAt r 0 = { r with b4 := 0, b5 := 0, b6 := 0, b7 := 0 }) ∧
  (∀ r : Block, ctrAt r 1 = { r with b4 := 0, b5 := 0, b6 := 0, b7 := 1 } ∧
    ctrAt r 127 = { r with b4 := 0, b5 := 0, b6 := 0, b7 := 0x7F } ∧
    ctrAt r 128 = { r with b4 := 0, b5 := 0, b6 := 1, b7 := 0 } ∧
    ctrAt r 129 = { r with b4 := 0, b5 := 0, b6 := 1, b7 := 1 } ∧
    ctrAt r 16383 = { r with b4 := 0, b5 := 0, b6 := 0x7F, b7 := 0x7F } ∧
    ctrAt r 16384 = { r with b4 := 0, b5 := 1, b6 := 0, b7 := 0 } ∧
    ctrAt r 2097152 = { r with b4 := 1, b5 := 0, b6 := 0, b7 := 0 } ∧
    ctrAt r 268435455 = { r with b4 := 0x7F, b5 := 0x7F, b6 := 0x7F, b7 := 0x7F })

/-! ### The block utilities -/

/-- R110: `split` gives `ceil(L/8)` Blocks; byte `j` of block `i` is byte `8*i + j` of the input, zero beyond its end. -/
def Obligations.SplitPadsTheLastChunk : Prop :=
  ∀ b : List Byte, (split b).length = ceil8 b.length ∧ 8 * ceil8 b.length < b.length + 8 ∧
    b.length ≤ 8 * ceil8 b.length ∧
    ∀ i j, i < ceil8 b.length → j < 8 → ((split b)[i]?.map fun m => m.byte j) = some (b.getD (8 * i + j) 0)

/-- R111, R112: `pad` is `join` of `split`, `join` is inverted by `split`, lengths are multiples of eight, and nothing is
appended to a whole number of blocks. That `split` undoes `join` is the spec's own inference (R112 c). -/
def Obligations.JoinUndoesSplit : Prop :=
  (∀ b : List Byte, pad b = b ++ List.replicate (8 * ceil8 b.length - b.length) 0 ∧ join (split b) = pad b ∧
    (pad b).length = 8 * ceil8 b.length ∧ (b.length % 8 = 0 → pad b = b)) ∧
  (∀ M : List Block, split (join M) = M ∧ (join M).length = 8 * M.length ∧
    ∀ i j, i < M.length → j < 8 → (join M)[8 * i + j]? = M[i]?.map fun m => m.byte j)

/-- R116: `normalize` gives exactly `n` bytes: all zero from an empty buffer, else `buf[i mod m]`; a longer buffer is
truncated, one of length `n` unchanged. -/
def Obligations.NormalizeIsCyclic : Prop :=
  ∀ (buf : List Byte) (n : Nat),
    (normalize buf n).length = n ∧
    (buf = [] → normalize buf n = List.replicate n 0) ∧
    (∀ i, i < n → buf ≠ [] → (normalize buf n)[i]? = buf[i % buf.length]?) ∧
    (n ≤ buf.length → normalize buf n = buf.take n)

/-- R114: `xor` of equal lengths is byte by byte and undoes itself, of unequal lengths it raises `LengthMismatch` with
both lengths; the combiner on Blocks is the same operation. -/
def Obligations.XorIsLaneWise : Prop :=
  (∀ a b : List Byte, a.length = b.length →
    ∃ r, xorBytes a b = .ok r ∧ r.length = a.length ∧
      (∀ (j : Nat) (x y : Byte), a[j]? = some x → b[j]? = some y → r[j]? = some (x ^^^ y)) ∧ xorBytes r b = .ok a) ∧
  (∀ a b : List Byte, a.length ≠ b.length → xorBytes a b = .error (.lengthMismatch a.length b.length)) ∧
  (∀ a b : Block, xorBytes a.bytes b.bytes = .ok (xorBlock a b).bytes ∧ xorBlock (xorBlock a b) b = a ∧
    xorBlock a a = Block.zero ∧ xorBlock a Block.zero = a)

/-- R222: `STRIP` removes all trailing zero bytes and nothing else, and recovers a message from its padding exactly when
the message is empty or ends in a non-zero byte. -/
def Obligations.StripRemovesTrailingZeros : Prop :=
  ∀ b : List Byte,
    (∃ k, b = strip b ++ List.replicate k 0) ∧ (strip b).getLast? ≠ some 0 ∧
    (strip (pad b) = b ↔ b = [] ∨ b.getLast? ≠ some 0)

/-- R55: a Block on a 64-bit path has byte 0 in bits 63..56 and byte 7 in bits 7..0; the path carries every Block, and
XOR on the path is XOR on the bytes. -/
def Obligations.WidePathAgrees : Prop :=
  ∀ (a b : Block) (w : BitVec 64),
    (∀ j, j < 8 → a.toWide.extractLsb' (56 - 8 * j) 8 = a.byte j) ∧ Block.ofWide a.toWide = a ∧
    (Block.ofWide w).toWide = w ∧ (xorBlock a b).toWide = a.toWide ^^^ b.toWide

/-! ### Whole runs -/

/-- R220, the spec's own inference ("derived: from rules R211, R216"): a successful run returns `8 * ceil(L/8)` bytes, for every mode, direction and algorithm. -/
def Obligations.ResultLength : Prop :=
  ∀ (p : Platform) (m k iv no out : List Byte) (c : Command),
    run p m k iv no c = .ok out → out.length = 8 * ceil8 m.length

/-- R150, R151, R153: a run of ECB, in either direction, is the primitive on each block; equal input blocks give equal
output blocks. -/
def Obligations.EcbWholeRun : Prop :=
  ∀ (p : Platform) (m k iv no out : List Byte) (dir : Dir) (alg : Alg),
    (run p m k iv no ⟨.ecb, dir, alg⟩ = .ok out ↔
      ∃ O : List Block, O.length = ceil8 m.length ∧ out = join O ∧
        ∀ (i : Nat) (b : Block), (split m)[i]? = some b → ∃ o, O[i]? = some o ∧
          (if dir = .encrypt then p.E else p.D) alg (normalize k (Config.keyBytes alg)) b = some o) ∧
    (run p m k iv no ⟨.ecb, dir, alg⟩ = .ok out → ∀ i j, i < ceil8 m.length → j < ceil8 m.length →
      (split m)[i]? = (split m)[j]? → (split out)[i]? = (split out)[j]?)

/-- R160, R161: `C[i] = E'(P[i] ⊕ C[i-1])` and `P[i] = D'(C[i]) ⊕ C[i-1]`, with `C[-1] = IVN`. -/
def Obligations.CbcWholeRun : Prop :=
  ∀ (p : Platform) (m k iv no out : List Byte) (alg : Alg),
    (run p m k iv no ⟨.cbc, .encrypt, alg⟩ = .ok out ↔
      ∃ C : List Block, C.length = ceil8 m.length ∧ out = join C ∧
        ∀ (i : Nat) (b : Block), (split m)[i]? = some b → ∃ c, C[i]? = some c ∧
          p.E alg (normalize k (Config.keyBytes alg))
            (xorBlock b (if i = 0 then zext8 (normalize iv 8) else C.getD (i - 1) Block.zero)) = some c) ∧
    (run p m k iv no ⟨.cbc, .decrypt, alg⟩ = .ok out ↔
      ∃ P : List Block, P.length = ceil8 m.length ∧ out = join P ∧
        ∀ (i : Nat) (b : Block), (split m)[i]? = some b →
          ∃ y, p.D alg (normalize k (Config.keyBytes alg)) b = some y ∧
            P[i]? = some (xorBlock y
              (if i = 0 then zext8 (normalize iv 8) else (split m).getD (i - 1) Block.zero)))

/-- R170, R171: `C[i] = P[i] ⊕ E'(C[i-1])` and `P[i] = C[i] ⊕ E'(C[i-1])`, with `C[-1] = IVN`. -/
def Obligations.CfbWholeRun : Prop :=
  ∀ (p : Platform) (m k iv no out : List Byte) (alg : Alg),
    (run p m k iv no ⟨.cfb, .encrypt, alg⟩ = .ok out ↔
      ∃ C : List Block, C.length = ceil8 m.length ∧ out = join C ∧
        ∀ (i : Nat) (b : Block), (split m)[i]? = some b →
          ∃ y, p.E alg (normalize k (Config.keyBytes alg))
              (if i = 0 then zext8 (normalize iv 8) else C.getD (i - 1) Block.zero) = some y ∧
            C[i]? = some (xorBlock b y)) ∧
    (run p m k iv no ⟨.cfb, .decrypt, alg⟩ = .ok out ↔
      ∃ P : List Block, P.length = ceil8 m.length ∧ out = join P ∧
        ∀ (i : Nat) (b : Block), (split m)[i]? = some b →
          ∃ y, p.E alg (normalize k (Config.keyBytes alg))
              (if i = 0 then zext8 (normalize iv 8) else (split m).getD (i - 1) Block.zero) = some y ∧
            P[i]? = some (xorBlock b y))

/-- R180, R181: `S[0] = E'(IVN)`, `S[i] = E'(S[i-1])`, `OUT[i] = MSG[i] ⊕ S[i]`, in either direction. -/
def Obligations.OfbWholeRun : Prop :=
  ∀ (p : Platform) (m k iv no out : List Byte) (dir : Dir) (alg : Alg),
    run p m k iv no ⟨.ofb, dir, alg⟩ = .ok out ↔
      ∃ O S : List Block, O.length = ceil8 m.length ∧ S.length = ceil8 m.length ∧ out = join O ∧
        ∀ (i : Nat) (b : Block), (split m)[i]? = some b → ∃ s, S[i]? = some s ∧
          p.E alg (normalize k (Config.keyBytes alg))
            (if i = 0 then zext8 (normalize iv 8) else S.getD (i - 1) Block.zero) = some s ∧
          O[i]? = some (xorBlock b s)

/-- R190, R191, R197: `OUT[i] = MSG[i] ⊕ E'(NONCE || ctr128(i mod 128^4))`, in either direction. -/
def Obligations.CtrWholeRun : Prop :=
  ∀ (p : Platform) (m k iv no out : List Byte) (dir : Dir) (alg : Alg),
    run p m k iv no ⟨.ctr, dir, alg⟩ = .ok out ↔
      ∃ O : List Block, O.length = ceil8 m.length ∧ out = join O ∧
        ∀ (i : Nat) (b : Block), (split m)[i]? = some b →
          ∃ y, p.E alg (normalize k (Config.keyBytes alg))
              (ctrAt (zext8 (normalize no 4)) (i % 128 ^ 4)) = some y ∧
            O[i]? = some (xorBlock b y)

/-- R221: decrypting what was encrypted, with the same key, IV, nonce, algorithm and mode, gives the padded message: in
ECB and CBC under `PRIM_INVERSE`, in CFB, OFB and CTR with no assumption on the primitive. -/
def Obligations.RoundTripGivesThePaddedMessage : Prop :=
  ∀ (p : Platform) (m k iv no c : List Byte) (mode : Mode) (alg : Alg),
    (mode = .ecb ∨ mode = .cbc → p.Inverse) →
    run p m k iv no ⟨mode, .encrypt, alg⟩ = .ok c → run p c k iv no ⟨mode, .decrypt, alg⟩ = .ok (pad m)

/-- R183 b (the spec's own inference), R197: in OFB and CTR outputs differ exactly where inputs differ, in both directions. -/
def Obligations.StreamModesKeepDifferences : Prop :=
  ∀ (p : Platform) (m1 m2 k iv no o1 o2 : List Byte) (mode : Mode) (d1 d2 : Dir) (alg : Alg),
    mode = .ofb ∨ mode = .ctr → ceil8 m1.length = ceil8 m2.length →
    run p m1 k iv no ⟨mode, d1, alg⟩ = .ok o1 → run p m2 k iv no ⟨mode, d2, alg⟩ = .ok o2 →
    List.zipWith (fun x y => x ^^^ y) o1 o2 = List.zipWith (fun x y => x ^^^ y) (pad m1) (pad m2)

/-- R151 d, R163 c, R173 c: a decrypted block depends on its own ciphertext block and, in CBC and CFB, on the one before
it, and on no other (R163 c and R173 c are the spec's own inference). -/
def Obligations.DecryptionIsLocal : Prop :=
  ∀ (p : Platform) (m1 m2 k iv no o1 o2 : List Byte) (mode : Mode) (alg : Alg) (j : Nat),
    mode = .ecb ∨ mode = .cbc ∨ mode = .cfb →
    run p m1 k iv no ⟨mode, .decrypt, alg⟩ = .ok o1 → run p m2 k iv no ⟨mode, .decrypt, alg⟩ = .ok o2 →
    (split m1)[j]? = (split m2)[j]? →
    (mode = .ecb ∨ j = 0 ∨ (split m1)[j - 1]? = (split m2)[j - 1]?) →
    (split o1)[j]? = (split o2)[j]?

/-- R163 b, R173 b: in CBC and CFB encryption a change in plaintext block `i` alone leaves the ciphertext blocks before
`i` as they are and, under `PRIM_INJECTIVE`, changes every one from `i` on (the spec's own inference in both rules). -/
def Obligations.ChangedBlockSpreads : Prop :=
  ∀ (p : Platform) (m1 m2 k iv no o1 o2 : List Byte) (mode : Mode) (alg : Alg) (i : Nat),
    p.Injective → mode = .cbc ∨ mode = .cfb →
    run p m1 k iv no ⟨mode, .encrypt, alg⟩ = .ok o1 → run p m2 k iv no ⟨mode, .encrypt, alg⟩ = .ok o2 →
    (split m1).length = (split m2).length →
    (∀ j, (split m1)[j]? ≠ (split m2)[j]? ↔ j = i) →
    ∀ j, j < (split m1).length → ((split o1)[j]? = (split o2)[j]? ↔ j < i)
end

