-- ==== Sys2Proof/Laws/Blocks.lean ====
section
/-! SUPPORT. The block utilities: bytes of a Block, split, join, pad, normalize and the XOR combiner. -/

namespace Sys2Proof

@[simp] theorem Block.bytes_length (b : Block) : b.bytes.length = 8 := rfl

/-- A Block is its bytes. -/
theorem Block.bytes_injective {a b : Block} (h : a.bytes = b.bytes) : a = b := by
  cases a; cases b; simpa [Block.bytes] using h

theorem Block.byte_lt (b : Block) (j : Nat) (hj : j < 8) : b.bytes[j]? = some (b.byte j) := by
  simp [Block.byte, List.getD, List.getElem?_eq_getElem (show j < b.bytes.length by simpa using hj)]

namespace Machine

open Sys2Proof

@[simp] theorem zext8_bytes (b : Block) : zext8 b.bytes = b := rfl

/-- `zext_8` (R11): the bytes there are, then zeros. -/
theorem zext8_bytes_eq (l : List Byte) (h : l.length ≤ 8) :
    (zext8 l).bytes = l ++ List.replicate (8 - l.length) 0 := by
  match l, h with
  | [], _ => rfl
  | [_], _ => rfl
  | [_, _], _ => rfl
  | [_, _, _], _ => rfl
  | [_, _, _, _], _ => rfl
  | [_, _, _, _, _], _ => rfl
  | [_, _, _, _, _, _], _ => rfl
  | [_, _, _, _, _, _, _], _ => rfl
  | [_, _, _, _, _, _, _, _], _ => rfl
  | _ :: _ :: _ :: _ :: _ :: _ :: _ :: _ :: _ :: _, h => exact absurd h (by simp only [List.length_cons]; omega)

theorem blockOfBytes_bytes (l : List Byte) (h : l.length = 8) : (blockOfBytes l).bytes = l := by
  have := zext8_bytes_eq l (by omega)
  simpa [blockOfBytes, h] using this

@[simp] theorem split_length (b : List Byte) : (split b).length = ceil8 b.length := by simp [split]

@[simp] theorem split_nil : split [] = [] := rfl

/-- `split` takes eight bytes at a time (R110). -/
theorem split_of_ne_nil (b : List Byte) (h : b ≠ []) : split b = zext8 (b.take 8) :: split (b.drop 8) := by
  have hl : 0 < b.length := List.length_pos_iff.2 h
  obtain ⟨k, hk⟩ : ∃ k, ceil8 b.length = k + 1 := ⟨ceil8 b.length - 1, by simp only [ceil8] at *; omega⟩
  have hd : ceil8 (b.drop 8).length = k := by simp only [ceil8, List.length_drop] at *; omega
  unfold split
  rw [hk, hd, List.range_succ_eq_map, List.map_cons, List.map_map]
  congr 1
  · have : b.take (min 8 b.length) = b.take 8 := by
      rcases Nat.le_total 8 b.length with h8 | h8
      · rw [Nat.min_eq_left h8]
      · rw [Nat.min_eq_right h8, List.take_length, List.take_of_length_le h8]
    simpa [memRead] using congrArg zext8 this
  · apply List.map_congr_left
    intro i _
    simp only [Function.comp, memRead, List.drop_drop, List.length_drop]
    rw [show 8 * (i + 1) = 8 + 8 * i by omega, show b.length - (8 + 8 * i) = b.length - 8 - 8 * i by omega]

@[simp] theorem join_nil : join [] = [] := rfl
@[simp] theorem join_cons (b : Block) (bs : List Block) : join (b :: bs) = b.bytes ++ join bs := rfl

@[simp] theorem join_append (a b : List Block) : join (a ++ b) = join a ++ join b := by simp [join]

@[simp] theorem join_length (bs : List Block) : (join bs).length = 8 * bs.length := by
  induction bs with
  | nil => rfl
  | cons b bs ih => simp [ih]; omega

/-- Splitting from the front: any byte list whose first eight bytes are a Block's. -/
theorem split_bytes_append (b : Block) (l : List Byte) : split (b.bytes ++ l) = b :: split l := by
  have hne : b.bytes ++ l ≠ [] := by simp [Block.bytes]
  rw [split_of_ne_nil _ hne, List.take_append_of_le_length (by simp), List.drop_append_of_le_length (by simp)]
  rw [show b.bytes.take 8 = b.bytes from rfl, show b.bytes.drop 8 = [] from rfl, zext8_bytes, List.nil_append]

theorem split_join_self (bs : List Block) : split (join bs) = bs := by
  induction bs with
  | nil => rfl
  | cons b bs ih => rw [join_cons, split_bytes_append, ih]

/-- Byte `j` of block `i` of the Message is byte `8*i + j` of the input, or padding (R53, R110). -/
theorem split_byte (b : List Byte) (i : Nat) (hi : i < ceil8 b.length) (j : Nat) (hj : j < 8) :
    ((split b)[i]?.map fun m => m.byte j) = some (b.getD (8 * i + j) 0) := by
  have hlen : i < (split b).length := by simpa using hi
  rw [List.getElem?_eq_getElem hlen]
  simp only [split, List.getElem_map, List.getElem_range, Option.map_some, Option.some.injEq]
  have key : ∀ l : List Byte, (zext8 l).byte j = l.getD j 0 := by
    intro l
    have : j = 0 ∨ j = 1 ∨ j = 2 ∨ j = 3 ∨ j = 4 ∨ j = 5 ∨ j = 6 ∨ j = 7 := by omega
    rcases this with h | h | h | h | h | h | h | h <;> subst h <;> rfl
  rw [key, memRead]
  simp only [List.getD_eq_getElem?_getD, List.getElem?_take, List.getElem?_drop]
  split
  · rfl
  next h => rw [List.getElem?_eq_none (by omega)]

/-- Two lists of the same bytes at every index below a common length. -/
theorem join_split_eq_pad (b : List Byte) : join (split b) = pad b := by
  induction hn : b.length using Nat.strong_induction_on generalizing b with
  | _ n ih =>
    by_cases hb : b = []
    · subst hb; rfl
    · have hpos : 0 < b.length := List.length_pos_iff.2 hb
      rw [split_of_ne_nil b hb, join_cons, ih (b.drop 8).length (by simp; omega) (b.drop 8) rfl,
        zext8_bytes_eq _ (by simp)]
      by_cases h8 : 8 ≤ b.length
      · have h1 : (b.take 8).length = 8 := by simp [h8]
        rw [h1]
        simp only [pad, List.length_drop, Nat.sub_self, List.replicate_zero, List.append_nil]
        rw [← List.append_assoc, List.take_append_drop]
        congr 2
        simp only [ceil8]; omega
      · have h1 : b.drop 8 = [] := List.drop_of_length_le (by omega)
        have h2 : b.take 8 = b := List.take_of_length_le (by omega)
        rw [h1, h2]
        have h3 : ceil8 b.length = 1 := by simp only [ceil8]; omega
        simp [pad, h3, show ceil8 0 = 0 from rfl]

@[simp] theorem normalize_length (buf : List Byte) (n : Nat) : (normalize buf n).length = n := by
  unfold normalize; split <;> simp

theorem normalize_getElem (buf : List Byte) (n i : Nat) (hi : i < n) (h : buf.length ≠ 0) :
    (normalize buf n)[i]? = buf[i % buf.length]? := by
  have hm : i % buf.length < buf.length := Nat.mod_lt _ (Nat.pos_of_ne_zero h)
  simp [normalize, h, hi, List.getElem?_eq_getElem hm]

@[simp] theorem xorBlock_zero (a : Block) : xorBlock a Block.zero = a := by cases a; simp [xorBlock, Block.zero]
@[simp] theorem xorBlock_self (a : Block) : xorBlock a a = Block.zero := by cases a; simp [xorBlock, Block.zero]
theorem xorBlock_comm (a b : Block) : xorBlock a b = xorBlock b a := by
  cases a; cases b; simp [xorBlock, BitVec.xor_comm]
theorem xorBlock_assoc (a b c : Block) : xorBlock (xorBlock a b) c = xorBlock a (xorBlock b c) := by
  cases a; cases b; cases c; simp [xorBlock, BitVec.xor_assoc]
@[simp] theorem xorBlock_cancel (a b : Block) : xorBlock (xorBlock a b) b = a := by simp [xorBlock_assoc]
theorem xorBlock_bytes (a b : Block) :
    (xorBlock a b).bytes = List.zipWith (fun x y => x ^^^ y) a.bytes b.bytes := rfl

end Machine

end Sys2Proof
end

