-- ==== Sys2Proof/Laws/Counter.lean ====
section
/-! SUPPORT. The CTR counter: what one increment does, and its closed form (spec R192 to R194). -/

namespace Sys2Proof.Machine

open Sys2Proof

theorem counterInRange_iff (r : Block) : counterInRange r = true ↔
    r.b4.toNat ≤ 127 ∧ r.b5.toNat ≤ 127 ∧ r.b6.toNat ≤ 127 ∧ r.b7.toNat ≤ 127 := by
  simp [counterInRange, Config.ctrByteMax, BitVec.le_def, and_assoc]

/-- The scan never touches the nonce half. -/
@[simp] theorem ctrScan_nonceHalf (r : Block) : (ctrScan r).nonceHalf = r.nonceHalf := by
  unfold ctrScan; repeat' split
  all_goals rfl

theorem ctrinc_nonceHalf {r r' : Block} (h : ctrinc r = some r') : r'.nonceHalf = r.nonceHalf := by
  unfold ctrinc at h; split at h
  · rw [← Option.some.inj h]; simp
  · cases h

@[simp] theorem ctrAt_nonceHalf (r : Block) (t : Nat) : (ctrAt r t).nonceHalf = r.nonceHalf := rfl

theorem byteOfDigit (t : Nat) : (BitVec.ofNat 8 (t % 128)).toNat = t % 128 := by
  simp only [BitVec.toNat_ofNat]; omega

theorem ctrAt_inRange (r : Block) (t : Nat) : counterInRange (ctrAt r t) = true := by
  rw [counterInRange_iff]; simp only [ctrAt, byteOfDigit]; omega

@[simp] theorem ctrAt_ctrAt (r : Block) (t u : Nat) : ctrAt (ctrAt r t) u = ctrAt r u := rfl

/-- Whether a digit is the last before the carry. -/
theorem digit_lt_iff (t : Nat) : BitVec.ofNat 8 (t % 128) < (127 : Byte) ↔ t % 128 < 127 := by
  rw [BitVec.lt_def, byteOfDigit]; rfl

theorem digit_succ (t : Nat) (h : t % 128 < 127) :
    BitVec.ofNat 8 (t % 128) + 1 = BitVec.ofNat 8 ((t + 1) % 128) := by
  apply BitVec.eq_of_toNat_eq
  rw [byteOfDigit, BitVec.toNat_add, byteOfDigit]
  show (t % 128 + 1) % 256 = (t + 1) % 128
  omega

theorem digit_wrap (t : Nat) (h : ¬t % 128 < 127) : BitVec.ofNat 8 ((t + 1) % 128) = (0 : Byte) := by
  rw [show (t + 1) % 128 = 0 by omega]; rfl

/-- One increment of `ctr128(t)` is `ctr128(t+1)`, the wrap-around included. -/
theorem ctrinc_ctrAt (r : Block) (t : Nat) : ctrinc (ctrAt r t) = some (ctrAt r (t + 1)) := by
  rw [ctrinc, if_pos (ctrAt_inRange r t)]
  congr 1
  have e2 : t / 128 ^ 2 = t / 128 / 128 := by omega
  have e3 : t / 128 ^ 3 = t / 128 / 128 / 128 := by omega
  have f2 : (t + 1) / 128 ^ 2 = (t + 1) / 128 / 128 := by omega
  have f3 : (t + 1) / 128 ^ 3 = (t + 1) / 128 / 128 / 128 := by omega
  have keep : t % 128 < 127 → (t + 1) / 128 = t / 128 := by omega
  have carry : ¬t % 128 < 127 → (t + 1) / 128 = t / 128 + 1 := by omega
  simp only [ctrScan, ctrAt, Config.ctrByteMax, e2, e3, f2, f3]
  split
  next h => rw [digit_lt_iff] at h; rw [digit_succ t h, keep h]
  next h =>
    rw [digit_lt_iff] at h; rw [digit_wrap t h, carry h]
    generalize t / 128 = u
    split
    next h => rw [digit_lt_iff] at h; rw [digit_succ u h, show (u + 1) / 128 = u / 128 by omega]
    next h =>
      rw [digit_lt_iff] at h; rw [digit_wrap u h, show (u + 1) / 128 = u / 128 + 1 by omega]
      generalize u / 128 = v
      split
      next h => rw [digit_lt_iff] at h; rw [digit_succ v h, show (v + 1) / 128 = v / 128 by omega]
      next h =>
        rw [digit_lt_iff] at h; rw [digit_wrap v h, show (v + 1) / 128 = v / 128 + 1 by omega]
        generalize v / 128 = w
        split
        next h => rw [digit_lt_iff] at h; rw [digit_succ w h]
        next h => rw [digit_lt_iff] at h; rw [digit_wrap w h]

/-- A register in range is `ctr128` of its own value. -/
theorem ctrAt_counterValue (r : Block) (h : counterInRange r = true) : ctrAt r r.counterValue = r := by
  obtain ⟨h4, h5, h6, h7⟩ := (counterInRange_iff r).1 h
  have e : ∀ (b : Byte) (n : Nat), n = b.toNat → BitVec.ofNat 8 n = b := by
    intro b n hn; subst hn; simp
  obtain ⟨b0, b1, b2, b3, b4, b5, b6, b7⟩ := r
  simp only [ctrAt, Block.counterValue, Block.mk.injEq, true_and] at *
  refine ⟨e _ _ ?_, e _ _ ?_, e _ _ ?_, e _ _ ?_⟩ <;> omega

theorem counterValue_ctrAt (r : Block) (t : Nat) : (ctrAt r t).counterValue = t % 128 ^ 4 := by
  simp only [Block.counterValue, ctrAt, byteOfDigit]; omega

/-- Where START puts the counter (R33). -/
theorem operandCtrr_eq (s : State) : operandCtrr s = ctrAt (operandCtrr s) 0 := by
  have h (j : Nat) (hj : j < 4) : (normalize s.rawNonce Config.nonceBytes ++
      List.replicate Config.ctrBytes Config.ctrInit).getD (4 + j) 0 = 0 := by
    have hl : (normalize s.rawNonce Config.nonceBytes).length = 4 := by simp [Config.nonceBytes]
    rw [List.getD_append_right _ _ _ _ (by omega), hl]
    have : j = 0 ∨ j = 1 ∨ j = 2 ∨ j = 3 := by omega
    rcases this with h | h | h | h <;> subst h <;> rfl
  simp only [operandCtrr, blockOfBytes, zext8, ctrAt, Block.mk.injEq, true_and]
  exact ⟨h 0 (by omega), h 1 (by omega), h 2 (by omega), h 3 (by omega)⟩

/-- The nonce half START loads (R33). -/
theorem operandCtrr_nonceHalf (s : State) : (operandCtrr s).nonceHalf = normalize s.rawNonce 4 := by
  have hl : (normalize s.rawNonce 4).length = 4 := by simp
  generalize hn : normalize s.rawNonce 4 = l at hl
  simp only [operandCtrr, Config.nonceBytes, hn]
  match l, hl with
  | [_, _, _, _], _ => rfl

end Sys2Proof.Machine
end

