-- ==== Sys2Proof/Laws/Memory.lean ====
section
/-! SUPPORT. The block buffer `OUTB`: read after write, the canonical form, and the blocks a run has written. -/

namespace Sys2Proof.Machine

open Sys2Proof

/-- Every write keeps the canonical form. -/
theorem Memory.write_wf_aux (m : BlockBuf) (i : Nat) (v : Block) (lo : Nat) (hlo : lo < i)
    (hm : ∀ p ∈ m, lo < p.1) : ∀ p ∈ Memory.write m i v, lo < p.1 := by
  induction m with
  | nil => simp [Memory.write, hlo]
  | cons q rest ih =>
    obtain ⟨k, b⟩ := q
    simp only [List.mem_cons, forall_eq_or_imp] at hm
    unfold Memory.write
    split
    · simp only [List.mem_cons, forall_eq_or_imp]; exact ⟨hlo, hm.1, hm.2⟩
    · split
      · simp only [List.mem_cons, forall_eq_or_imp]; exact ⟨hlo, hm.2⟩
      · simp only [List.mem_cons, forall_eq_or_imp]; exact ⟨hm.1, ih hm.2⟩

theorem Memory.write_keeps_wf (m : BlockBuf) (i : Nat) (v : Block) (h : Memory.wf m) :
    Memory.wf (Memory.write m i v) := by
  induction m with
  | nil => simp [Memory.write]
  | cons q rest ih =>
    obtain ⟨k, b⟩ := q
    obtain ⟨hk, hrest⟩ := List.pairwise_cons.1 h
    unfold Memory.write
    split
    next hlt =>
      refine List.pairwise_cons.2 ⟨?_, h⟩
      simp only [List.mem_cons, forall_eq_or_imp]
      exact ⟨hlt, fun p hp => lt_trans hlt (hk p hp)⟩
    next hge =>
      split
      next heq => exact List.pairwise_cons.2 ⟨fun p hp => by simpa [heq] using hk p hp, hrest⟩
      next hne =>
        exact List.pairwise_cons.2 ⟨Memory.write_wf_aux rest i v k (by omega) hk, ih hrest⟩

/-- Reset's memory has the canonical form. -/
theorem Memory.reset_wf : Memory.wf State.reset.outb := by simp [State.reset]

/-- The keys of a buffer whose blocks `0 .. n-1` are written, in canonical form. -/
theorem Memory.wf_of_keys_range (m : BlockBuf) (n : Nat) (h : m.map Prod.fst = List.range n) : Memory.wf m := by
  have : List.Pairwise (fun a b : Nat => a < b) (m.map Prod.fst) := by rw [h]; exact List.pairwise_lt_range
  exact List.pairwise_map.1 this

/-- Writing above every key appends. -/
theorem Memory.write_above (m : BlockBuf) (i : Nat) (v : Block) (h : ∀ p ∈ m, p.1 < i) :
    Memory.write m i v = m ++ [(i, v)] := by
  induction m with
  | nil => rfl
  | cons q rest ih =>
    obtain ⟨k, b⟩ := q
    simp only [List.mem_cons, forall_eq_or_imp] at h
    have hk : k < i := h.1
    simp [Memory.write, ih h.2, Nat.lt_asymm hk, Nat.ne_of_gt hk]

/-- A block step appends to the blocks a run has written (R34). -/
theorem Memory.write_keys_range (m : BlockBuf) (n : Nat) (v : Block) (h : m.map Prod.fst = List.range n) :
    Memory.write m n v = m ++ [(n, v)] ∧ (Memory.write m n v).map Prod.fst = List.range (n + 1) := by
  have hb : ∀ p ∈ m, p.1 < n := by
    intro p hp
    have := List.mem_map_of_mem (f := Prod.fst) hp
    rw [h] at this; simpa using this
  rw [Memory.write_above m n v hb]
  simp [h, List.range_succ]

/-- A buffer of the blocks `0 .. n-1` reads as the list of its blocks. -/
theorem Memory.read_of_zip (k : Nat) (bs : List Block) (i : Nat) (hi : k ≤ i) :
    Memory.read ((List.range' k bs.length).zip bs) i = bs[i - k]? := by
  induction bs generalizing k with
  | nil => simp [Memory.read]
  | cons b bs ih =>
    simp only [List.length_cons, List.range'_succ, List.zip_cons_cons, Memory.read]
    split
    next h => subst h; simp
    next h =>
      rw [ih (k + 1) (by omega)]
      obtain ⟨d, hd⟩ : ∃ d, i - k = d + 1 := ⟨i - k - 1, by omega⟩
      rw [hd, show i - (k + 1) = d by omega]; simp

/-- The blocks of a buffer, as a list of pairs with their indices. -/
theorem Memory.eq_zip (m : BlockBuf) (n : Nat) (h : m.map Prod.fst = List.range n) :
    m = (List.range' 0 (m.map Prod.snd).length).zip (m.map Prod.snd) := by
  have hn : m.length = n := by simpa using congrArg List.length h
  rw [List.length_map, hn, ← List.range_eq_range', ← h]
  exact List.zip_of_prod rfl rfl |>.symm ▸ rfl

theorem Memory.read_keys_range (m : BlockBuf) (n : Nat) (h : m.map Prod.fst = List.range n) (i : Nat) :
    Memory.read m i = (m.map Prod.snd)[i]? := by
  conv_lhs => rw [Memory.eq_zip m n h]
  rw [Memory.read_of_zip 0 _ i (Nat.zero_le _)]; simp

/-- FINISH finds every block a run has written. -/
theorem Memory.gather_of_read (m : BlockBuf) (i : Nat) (bs : List Block)
    (h : ∀ j, j < bs.length → Memory.read m (i + j) = bs[j]?) : Memory.gather m i bs.length = some bs := by
  induction bs generalizing i with
  | nil => rfl
  | cons b bs ih =>
    have h0 : Memory.read m i = some b := by simpa using h 0 (by simp)
    have h1 : Memory.gather m (i + 1) bs.length = some bs := ih (i + 1) fun j hj => by
      have := h (j + 1) (by simp; omega)
      simpa [Nat.add_assoc, Nat.add_comm 1 j] using this
    simp [Memory.gather, h0, h1]

theorem Memory.gather_keys_range (m : BlockBuf) (n : Nat) (h : m.map Prod.fst = List.range n) :
    Memory.gather m 0 n = some (m.map Prod.snd) := by
  have hn : (m.map Prod.snd).length = n := by simpa using congrArg List.length h
  have := Memory.gather_of_read m 0 (m.map Prod.snd) fun j _ => by
    rw [Nat.zero_add, Memory.read_keys_range m n h]
  rwa [hn] at this

end Sys2Proof.Machine
end

