-- ==== Sys2Proof/Laws/State.lean ====
section
/-! SUPPORT. One lemma per field per update of the state: no later proof unfolds a record update. -/

namespace Sys2Proof.Machine

open Sys2Proof

/-! ### START -/

@[simp] theorem start_rawMsg (c : Command) (s : State) : (start c s).rawMsg = s.rawMsg := rfl
@[simp] theorem start_rawKey (c : Command) (s : State) : (start c s).rawKey = s.rawKey := rfl
@[simp] theorem start_rawIv (c : Command) (s : State) : (start c s).rawIv = s.rawIv := rfl
@[simp] theorem start_rawNonce (c : Command) (s : State) : (start c s).rawNonce = s.rawNonce := rfl
@[simp] theorem start_cmd (c : Command) (s : State) : (start c s).cmd = s.cmd := rfl
@[simp] theorem start_status (c : Command) (s : State) : (start c s).status = startStatus := rfl
@[simp] theorem start_out (c : Command) (s : State) : (start c s).out = [] := rfl
@[simp] theorem start_alg (c : Command) (s : State) : (start c s).alg = c.alg := rfl
@[simp] theorem start_dir (c : Command) (s : State) : (start c s).dir = c.dir := rfl
@[simp] theorem start_mode (c : Command) (s : State) : (start c s).mode = c.mode := rfl
@[simp] theorem start_n (c : Command) (s : State) : (start c s).n = operandN s := rfl
@[simp] theorem start_bi (c : Command) (s : State) : (start c s).bi = 0 := rfl
@[simp] theorem start_keyn (c : Command) (s : State) : (start c s).keyn = operandKey c.alg s := rfl
@[simp] theorem start_ivn (c : Command) (s : State) : (start c s).ivn = operandIv s := rfl
@[simp] theorem start_cv (c : Command) (s : State) : (start c s).cv = operandIv s := rfl
@[simp] theorem start_ctrr (c : Command) (s : State) : (start c s).ctrr = operandCtrr s := rfl
@[simp] theorem start_msg (c : Command) (s : State) : (start c s).msg = operandMsg s := rfl
@[simp] theorem start_outb (c : Command) (s : State) : (start c s).outb = [] := rfl
@[simp] theorem start_agenda (c : Command) (s : State) : (start c s).agenda = s.agenda := rfl
@[simp] theorem start_answer (c : Command) (s : State) : (start c s).answer = s.answer := rfl

/-! ### A completed block step -/

@[simp] theorem commitBlock_rawMsg (w : BlockOut) (s : State) : (commitBlock w s).rawMsg = s.rawMsg := rfl
@[simp] theorem commitBlock_rawKey (w : BlockOut) (s : State) : (commitBlock w s).rawKey = s.rawKey := rfl
@[simp] theorem commitBlock_rawIv (w : BlockOut) (s : State) : (commitBlock w s).rawIv = s.rawIv := rfl
@[simp] theorem commitBlock_rawNonce (w : BlockOut) (s : State) : (commitBlock w s).rawNonce = s.rawNonce := rfl
@[simp] theorem commitBlock_cmd (w : BlockOut) (s : State) : (commitBlock w s).cmd = s.cmd := rfl
@[simp] theorem commitBlock_status (w : BlockOut) (s : State) : (commitBlock w s).status = s.status := rfl
@[simp] theorem commitBlock_out (w : BlockOut) (s : State) : (commitBlock w s).out = s.out := rfl
@[simp] theorem commitBlock_alg (w : BlockOut) (s : State) : (commitBlock w s).alg = s.alg := rfl
@[simp] theorem commitBlock_dir (w : BlockOut) (s : State) : (commitBlock w s).dir = s.dir := rfl
@[simp] theorem commitBlock_mode (w : BlockOut) (s : State) : (commitBlock w s).mode = s.mode := rfl
@[simp] theorem commitBlock_n (w : BlockOut) (s : State) : (commitBlock w s).n = s.n := rfl
@[simp] theorem commitBlock_bi (w : BlockOut) (s : State) : (commitBlock w s).bi = s.bi + 1 := rfl
@[simp] theorem commitBlock_keyn (w : BlockOut) (s : State) : (commitBlock w s).keyn = s.keyn := rfl
@[simp] theorem commitBlock_ivn (w : BlockOut) (s : State) : (commitBlock w s).ivn = s.ivn := rfl
@[simp] theorem commitBlock_cv (w : BlockOut) (s : State) : (commitBlock w s).cv = w.cv := rfl
@[simp] theorem commitBlock_ctrr (w : BlockOut) (s : State) : (commitBlock w s).ctrr = w.ctrr := rfl
@[simp] theorem commitBlock_msg (w : BlockOut) (s : State) : (commitBlock w s).msg = s.msg := rfl
@[simp] theorem commitBlock_outb (w : BlockOut) (s : State) : (commitBlock w s).outb = Memory.write s.outb s.bi w.out := rfl
@[simp] theorem commitBlock_agenda (w : BlockOut) (s : State) : (commitBlock w s).agenda = s.agenda := rfl
@[simp] theorem commitBlock_answer (w : BlockOut) (s : State) : (commitBlock w s).answer = s.answer := rfl

/-! ### The error entry -/

@[simp] theorem errorEntry_rawMsg (e : EngineError) (s : State) : (errorEntry e s).rawMsg = s.rawMsg := rfl
@[simp] theorem errorEntry_rawKey (e : EngineError) (s : State) : (errorEntry e s).rawKey = s.rawKey := rfl
@[simp] theorem errorEntry_rawIv (e : EngineError) (s : State) : (errorEntry e s).rawIv = s.rawIv := rfl
@[simp] theorem errorEntry_rawNonce (e : EngineError) (s : State) : (errorEntry e s).rawNonce = s.rawNonce := rfl
@[simp] theorem errorEntry_cmd (e : EngineError) (s : State) : (errorEntry e s).cmd = s.cmd := rfl
@[simp] theorem errorEntry_status (e : EngineError) (s : State) : (errorEntry e s).status = errorStatus e := rfl
@[simp] theorem errorEntry_out (e : EngineError) (s : State) : (errorEntry e s).out = [] := rfl
@[simp] theorem errorEntry_alg (e : EngineError) (s : State) : (errorEntry e s).alg = s.alg := rfl
@[simp] theorem errorEntry_dir (e : EngineError) (s : State) : (errorEntry e s).dir = s.dir := rfl
@[simp] theorem errorEntry_mode (e : EngineError) (s : State) : (errorEntry e s).mode = s.mode := rfl
@[simp] theorem errorEntry_n (e : EngineError) (s : State) : (errorEntry e s).n = s.n := rfl
@[simp] theorem errorEntry_bi (e : EngineError) (s : State) : (errorEntry e s).bi = s.bi := rfl
@[simp] theorem errorEntry_keyn (e : EngineError) (s : State) : (errorEntry e s).keyn = s.keyn := rfl
@[simp] theorem errorEntry_ivn (e : EngineError) (s : State) : (errorEntry e s).ivn = s.ivn := rfl
@[simp] theorem errorEntry_cv (e : EngineError) (s : State) : (errorEntry e s).cv = s.cv := rfl
@[simp] theorem errorEntry_ctrr (e : EngineError) (s : State) : (errorEntry e s).ctrr = s.ctrr := rfl
@[simp] theorem errorEntry_msg (e : EngineError) (s : State) : (errorEntry e s).msg = s.msg := rfl
@[simp] theorem errorEntry_outb (e : EngineError) (s : State) : (errorEntry e s).outb = s.outb := rfl
@[simp] theorem errorEntry_agenda (e : EngineError) (s : State) : (errorEntry e s).agenda = s.agenda := rfl
@[simp] theorem errorEntry_answer (e : EngineError) (s : State) : (errorEntry e s).answer = s.answer := rfl

/-! ### `Reset` -/

@[simp] theorem hostReset_rawMsg (s : State) : (hostReset s).rawMsg = State.reset.rawMsg := rfl
@[simp] theorem hostReset_rawKey (s : State) : (hostReset s).rawKey = State.reset.rawKey := rfl
@[simp] theorem hostReset_rawIv (s : State) : (hostReset s).rawIv = State.reset.rawIv := rfl
@[simp] theorem hostReset_rawNonce (s : State) : (hostReset s).rawNonce = State.reset.rawNonce := rfl
@[simp] theorem hostReset_cmd (s : State) : (hostReset s).cmd = State.reset.cmd := rfl
@[simp] theorem hostReset_status (s : State) : (hostReset s).status = State.reset.status := rfl
@[simp] theorem hostReset_out (s : State) : (hostReset s).out = State.reset.out := rfl
@[simp] theorem hostReset_alg (s : State) : (hostReset s).alg = State.reset.alg := rfl
@[simp] theorem hostReset_dir (s : State) : (hostReset s).dir = State.reset.dir := rfl
@[simp] theorem hostReset_mode (s : State) : (hostReset s).mode = State.reset.mode := rfl
@[simp] theorem hostReset_n (s : State) : (hostReset s).n = State.reset.n := rfl
@[simp] theorem hostReset_bi (s : State) : (hostReset s).bi = State.reset.bi := rfl
@[simp] theorem hostReset_keyn (s : State) : (hostReset s).keyn = State.reset.keyn := rfl
@[simp] theorem hostReset_ivn (s : State) : (hostReset s).ivn = State.reset.ivn := rfl
@[simp] theorem hostReset_cv (s : State) : (hostReset s).cv = State.reset.cv := rfl
@[simp] theorem hostReset_ctrr (s : State) : (hostReset s).ctrr = State.reset.ctrr := rfl
@[simp] theorem hostReset_msg (s : State) : (hostReset s).msg = State.reset.msg := rfl
@[simp] theorem hostReset_outb (s : State) : (hostReset s).outb = State.reset.outb := rfl
@[simp] theorem hostReset_agenda (s : State) : (hostReset s).agenda = s.agenda := rfl
@[simp] theorem hostReset_answer (s : State) : (hostReset s).answer = State.reset.answer := rfl

/-! ### `WriteCmd`, `ReadStatus`, `ReadOut` -/

@[simp] theorem writeCmd_rawMsg (c : BitVec 5) (s : State) : (writeCmd c s).rawMsg = s.rawMsg := rfl
@[simp] theorem writeCmd_rawKey (c : BitVec 5) (s : State) : (writeCmd c s).rawKey = s.rawKey := rfl
@[simp] theorem writeCmd_rawIv (c : BitVec 5) (s : State) : (writeCmd c s).rawIv = s.rawIv := rfl
@[simp] theorem writeCmd_rawNonce (c : BitVec 5) (s : State) : (writeCmd c s).rawNonce = s.rawNonce := rfl
@[simp] theorem writeCmd_cmd (c : BitVec 5) (s : State) : (writeCmd c s).cmd = c := rfl
@[simp] theorem writeCmd_status (c : BitVec 5) (s : State) : (writeCmd c s).status = s.status := rfl
@[simp] theorem writeCmd_out (c : BitVec 5) (s : State) : (writeCmd c s).out = s.out := rfl
@[simp] theorem writeCmd_alg (c : BitVec 5) (s : State) : (writeCmd c s).alg = s.alg := rfl
@[simp] theorem writeCmd_dir (c : BitVec 5) (s : State) : (writeCmd c s).dir = s.dir := rfl
@[simp] theorem writeCmd_mode (c : BitVec 5) (s : State) : (writeCmd c s).mode = s.mode := rfl
@[simp] theorem writeCmd_n (c : BitVec 5) (s : State) : (writeCmd c s).n = s.n := rfl
@[simp] theorem writeCmd_bi (c : BitVec 5) (s : State) : (writeCmd c s).bi = s.bi := rfl
@[simp] theorem writeCmd_keyn (c : BitVec 5) (s : State) : (writeCmd c s).keyn = s.keyn := rfl
@[simp] theorem writeCmd_ivn (c : BitVec 5) (s : State) : (writeCmd c s).ivn = s.ivn := rfl
@[simp] theorem writeCmd_cv (c : BitVec 5) (s : State) : (writeCmd c s).cv = s.cv := rfl
@[simp] theorem writeCmd_ctrr (c : BitVec 5) (s : State) : (writeCmd c s).ctrr = s.ctrr := rfl
@[simp] theorem writeCmd_msg (c : BitVec 5) (s : State) : (writeCmd c s).msg = s.msg := rfl
@[simp] theorem writeCmd_outb (c : BitVec 5) (s : State) : (writeCmd c s).outb = s.outb := rfl
@[simp] theorem writeCmd_agenda (c : BitVec 5) (s : State) : (writeCmd c s).agenda = s.agenda := rfl
@[simp] theorem writeCmd_answer (c : BitVec 5) (s : State) : (writeCmd c s).answer = .nothing := rfl
@[simp] theorem readStatus_rawMsg (s : State) : (readStatus s).rawMsg = s.rawMsg := rfl
@[simp] theorem readStatus_rawKey (s : State) : (readStatus s).rawKey = s.rawKey := rfl
@[simp] theorem readStatus_rawIv (s : State) : (readStatus s).rawIv = s.rawIv := rfl
@[simp] theorem readStatus_rawNonce (s : State) : (readStatus s).rawNonce = s.rawNonce := rfl
@[simp] theorem readStatus_cmd (s : State) : (readStatus s).cmd = s.cmd := rfl
@[simp] theorem readStatus_status (s : State) : (readStatus s).status = s.status := rfl
@[simp] theorem readStatus_out (s : State) : (readStatus s).out = s.out := rfl
@[simp] theorem readStatus_alg (s : State) : (readStatus s).alg = s.alg := rfl
@[simp] theorem readStatus_dir (s : State) : (readStatus s).dir = s.dir := rfl
@[simp] theorem readStatus_mode (s : State) : (readStatus s).mode = s.mode := rfl
@[simp] theorem readStatus_n (s : State) : (readStatus s).n = s.n := rfl
@[simp] theorem readStatus_bi (s : State) : (readStatus s).bi = s.bi := rfl
@[simp] theorem readStatus_keyn (s : State) : (readStatus s).keyn = s.keyn := rfl
@[simp] theorem readStatus_ivn (s : State) : (readStatus s).ivn = s.ivn := rfl
@[simp] theorem readStatus_cv (s : State) : (readStatus s).cv = s.cv := rfl
@[simp] theorem readStatus_ctrr (s : State) : (readStatus s).ctrr = s.ctrr := rfl
@[simp] theorem readStatus_msg (s : State) : (readStatus s).msg = s.msg := rfl
@[simp] theorem readStatus_outb (s : State) : (readStatus s).outb = s.outb := rfl
@[simp] theorem readStatus_agenda (s : State) : (readStatus s).agenda = s.agenda := rfl
@[simp] theorem readStatus_answer (s : State) : (readStatus s).answer = .status s.status := rfl
@[simp] theorem readOut_rawMsg (s : State) : (readOut s).rawMsg = s.rawMsg := rfl
@[simp] theorem readOut_rawKey (s : State) : (readOut s).rawKey = s.rawKey := rfl
@[simp] theorem readOut_rawIv (s : State) : (readOut s).rawIv = s.rawIv := rfl
@[simp] theorem readOut_rawNonce (s : State) : (readOut s).rawNonce = s.rawNonce := rfl
@[simp] theorem readOut_cmd (s : State) : (readOut s).cmd = s.cmd := rfl
@[simp] theorem readOut_status (s : State) : (readOut s).status = s.status := rfl
@[simp] theorem readOut_out (s : State) : (readOut s).out = s.out := rfl
@[simp] theorem readOut_alg (s : State) : (readOut s).alg = s.alg := rfl
@[simp] theorem readOut_dir (s : State) : (readOut s).dir = s.dir := rfl
@[simp] theorem readOut_mode (s : State) : (readOut s).mode = s.mode := rfl
@[simp] theorem readOut_n (s : State) : (readOut s).n = s.n := rfl
@[simp] theorem readOut_bi (s : State) : (readOut s).bi = s.bi := rfl
@[simp] theorem readOut_keyn (s : State) : (readOut s).keyn = s.keyn := rfl
@[simp] theorem readOut_ivn (s : State) : (readOut s).ivn = s.ivn := rfl
@[simp] theorem readOut_cv (s : State) : (readOut s).cv = s.cv := rfl
@[simp] theorem readOut_ctrr (s : State) : (readOut s).ctrr = s.ctrr := rfl
@[simp] theorem readOut_msg (s : State) : (readOut s).msg = s.msg := rfl
@[simp] theorem readOut_outb (s : State) : (readOut s).outb = s.outb := rfl
@[simp] theorem readOut_agenda (s : State) : (readOut s).agenda = s.agenda := rfl
@[simp] theorem readOut_answer (s : State) : (readOut s).answer = .out s.out := rfl

/-! ### `WriteBuf`: everything but the raw buffers and the answer stays -/

@[simp] theorem setRaw_cmd (x : RawBuf) (b : List Byte) (s : State) : (setRaw x b s).cmd = s.cmd := by cases x <;> rfl
@[simp] theorem setRaw_status (x : RawBuf) (b : List Byte) (s : State) : (setRaw x b s).status = s.status := by cases x <;> rfl
@[simp] theorem setRaw_out (x : RawBuf) (b : List Byte) (s : State) : (setRaw x b s).out = s.out := by cases x <;> rfl
@[simp] theorem setRaw_alg (x : RawBuf) (b : List Byte) (s : State) : (setRaw x b s).alg = s.alg := by cases x <;> rfl
@[simp] theorem setRaw_dir (x : RawBuf) (b : List Byte) (s : State) : (setRaw x b s).dir = s.dir := by cases x <;> rfl
@[simp] theorem setRaw_mode (x : RawBuf) (b : List Byte) (s : State) : (setRaw x b s).mode = s.mode := by cases x <;> rfl
@[simp] theorem setRaw_n (x : RawBuf) (b : List Byte) (s : State) : (setRaw x b s).n = s.n := by cases x <;> rfl
@[simp] theorem setRaw_bi (x : RawBuf) (b : List Byte) (s : State) : (setRaw x b s).bi = s.bi := by cases x <;> rfl
@[simp] theorem setRaw_keyn (x : RawBuf) (b : List Byte) (s : State) : (setRaw x b s).keyn = s.keyn := by cases x <;> rfl
@[simp] theorem setRaw_ivn (x : RawBuf) (b : List Byte) (s : State) : (setRaw x b s).ivn = s.ivn := by cases x <;> rfl
@[simp] theorem setRaw_cv (x : RawBuf) (b : List Byte) (s : State) : (setRaw x b s).cv = s.cv := by cases x <;> rfl
@[simp] theorem setRaw_ctrr (x : RawBuf) (b : List Byte) (s : State) : (setRaw x b s).ctrr = s.ctrr := by cases x <;> rfl
@[simp] theorem setRaw_msg (x : RawBuf) (b : List Byte) (s : State) : (setRaw x b s).msg = s.msg := by cases x <;> rfl
@[simp] theorem setRaw_outb (x : RawBuf) (b : List Byte) (s : State) : (setRaw x b s).outb = s.outb := by cases x <;> rfl
@[simp] theorem setRaw_agenda (x : RawBuf) (b : List Byte) (s : State) : (setRaw x b s).agenda = s.agenda := by cases x <;> rfl
@[simp] theorem setRaw_answer (x : RawBuf) (b : List Byte) (s : State) : (setRaw x b s).answer = s.answer := by cases x <;> rfl
@[simp] theorem writeBuf_cmd (p : Platform) (x : RawBuf) (b : List Byte) (s : State) : (writeBuf p x b s).cmd = s.cmd := by
  unfold writeBuf; split <;> simp
@[simp] theorem writeBuf_status (p : Platform) (x : RawBuf) (b : List Byte) (s : State) : (writeBuf p x b s).status = s.status := by
  unfold writeBuf; split <;> simp
@[simp] theorem writeBuf_out (p : Platform) (x : RawBuf) (b : List Byte) (s : State) : (writeBuf p x b s).out = s.out := by
  unfold writeBuf; split <;> simp
@[simp] theorem writeBuf_alg (p : Platform) (x : RawBuf) (b : List Byte) (s : State) : (writeBuf p x b s).alg = s.alg := by
  unfold writeBuf; split <;> simp
@[simp] theorem writeBuf_dir (p : Platform) (x : RawBuf) (b : List Byte) (s : State) : (writeBuf p x b s).dir = s.dir := by
  unfold writeBuf; split <;> simp
@[simp] theorem writeBuf_mode (p : Platform) (x : RawBuf) (b : List Byte) (s : State) : (writeBuf p x b s).mode = s.mode := by
  unfold writeBuf; split <;> simp
@[simp] theorem writeBuf_n (p : Platform) (x : RawBuf) (b : List Byte) (s : State) : (writeBuf p x b s).n = s.n := by
  unfold writeBuf; split <;> simp
@[simp] theorem writeBuf_bi (p : Platform) (x : RawBuf) (b : List Byte) (s : State) : (writeBuf p x b s).bi = s.bi := by
  unfold writeBuf; split <;> simp
@[simp] theorem writeBuf_keyn (p : Platform) (x : RawBuf) (b : List Byte) (s : State) : (writeBuf p x b s).keyn = s.keyn := by
  unfold writeBuf; split <;> simp
@[simp] theorem writeBuf_ivn (p : Platform) (x : RawBuf) (b : List Byte) (s : State) : (writeBuf p x b s).ivn = s.ivn := by
  unfold writeBuf; split <;> simp
@[simp] theorem writeBuf_cv (p : Platform) (x : RawBuf) (b : List Byte) (s : State) : (writeBuf p x b s).cv = s.cv := by
  unfold writeBuf; split <;> simp
@[simp] theorem writeBuf_ctrr (p : Platform) (x : RawBuf) (b : List Byte) (s : State) : (writeBuf p x b s).ctrr = s.ctrr := by
  unfold writeBuf; split <;> simp
@[simp] theorem writeBuf_msg (p : Platform) (x : RawBuf) (b : List Byte) (s : State) : (writeBuf p x b s).msg = s.msg := by
  unfold writeBuf; split <;> simp
@[simp] theorem writeBuf_outb (p : Platform) (x : RawBuf) (b : List Byte) (s : State) : (writeBuf p x b s).outb = s.outb := by
  unfold writeBuf; split <;> simp
@[simp] theorem writeBuf_agenda (p : Platform) (x : RawBuf) (b : List Byte) (s : State) : (writeBuf p x b s).agenda = s.agenda := by
  unfold writeBuf; split <;> simp

/-! ### `STATUS` -/

@[simp] theorem stOf_packStatus (st : St) (e : Err) : stOf (packStatus st e) = st := by
  cases st <;> cases e <;> rfl

@[simp] theorem errOf_packStatus (st : St) (e : Err) : errOf (packStatus st e) = e := by
  cases st <;> cases e <;> rfl

theorem packStatus_fields (w : BitVec 4) : packStatus (stOf w) (errOf w) = w := by
  revert w; decide

@[simp] theorem stOf_startStatus : stOf startStatus = .busy := rfl
@[simp] theorem errOf_startStatus : errOf startStatus = .none := rfl
@[simp] theorem stOf_finishStatus (w : BitVec 4) : stOf (finishStatus w) = .done := by simp [finishStatus, withSt]
@[simp] theorem errOf_finishStatus (w : BitVec 4) : errOf (finishStatus w) = errOf w := by simp [finishStatus, withSt]
@[simp] theorem stOf_errorStatus (e : EngineError) : stOf (errorStatus e) = .error := by simp [errorStatus]
@[simp] theorem errOf_errorStatus (e : EngineError) : errOf (errorStatus e) = errOfError e := by simp [errorStatus]

@[simp] theorem start_st (c : Command) (s : State) : (start c s).st = .busy := by simp [State.st]
@[simp] theorem start_err (c : Command) (s : State) : (start c s).err = .none := by simp [State.err]
@[simp] theorem commitBlock_st (w : BlockOut) (s : State) : (commitBlock w s).st = s.st := rfl
@[simp] theorem commitBlock_err (w : BlockOut) (s : State) : (commitBlock w s).err = s.err := rfl
@[simp] theorem errorEntry_st (e : EngineError) (s : State) : (errorEntry e s).st = .error := by simp [State.st]
@[simp] theorem errorEntry_err (e : EngineError) (s : State) : (errorEntry e s).err = errOfError e := by simp [State.err]
@[simp] theorem hostReset_st (s : State) : (hostReset s).st = .idle := by simp [State.st, State.reset]; decide
@[simp] theorem hostReset_err (s : State) : (hostReset s).err = .none := by simp [State.err, State.reset]; decide
@[simp] theorem writeBuf_st (p : Platform) (x : RawBuf) (b : List Byte) (s : State) :
    (writeBuf p x b s).st = s.st := by simp [State.st]
@[simp] theorem writeBuf_err (p : Platform) (x : RawBuf) (b : List Byte) (s : State) :
    (writeBuf p x b s).err = s.err := by simp [State.err]

/-- `WriteBuf` keeps every buffer within its capacity. -/
theorem writeBuf_fits (p : Platform) (x y : RawBuf) (b : List Byte) (s : State)
    (h : fits (capacity p y) (s.raw y).length = true) :
    fits (capacity p y) ((writeBuf p x b s).raw y).length = true := by
  unfold writeBuf
  split
  next hb => cases x <;> cases y <;> simp_all [setRaw, State.raw, capacity]
  next => cases y <;> simpa [State.raw] using h

/-- Nothing is too long for an empty buffer. -/
@[simp] theorem fits_zero (cap : Option Nat) : fits cap 0 = true := by cases cap <;> simp [fits]

/-- A message within its capacity has a block count within the capacity in blocks (R35). -/
theorem fits_ceil8 (cap : Option Nat) (len : Nat) (h : fits cap len = true) :
    fits (cap.map ceil8) (ceil8 len) = true := by
  cases cap with
  | none => rfl
  | some c =>
    have hc : len ≤ c := by simpa [fits] using h
    have : ceil8 len ≤ ceil8 c := Nat.div_le_div_right (by omega)
    simpa [fits] using this

end Sys2Proof.Machine
end

