-- ==== Sys2Proof/Laws/Engine.lean ====
section
/-! SUPPORT. Once for each shared operation, everything it can do: the request, the block step, FINISH, a command's engine
step, and a step of the machine. -/

namespace Sys2Proof.Machine

open Sys2Proof

/-! ### The primitive and the ten block steps -/

/-- The one error of a request (R137). -/
theorem prim_error {p : Platform} {op : PrimOp} {alg : Alg} {key : List Byte} {b : Block} {e : EngineError}
    (h : prim p op alg key b = .error e) : e = .cipherPrimitiveError := by
  cases op <;> simp only [prim] at h <;> split at h <;> cases h <;> rfl

/-- A block step that completes: the request was answered, and its writes are the table's (R214). -/
theorem blockOf_ok {p : Platform} {mode : Mode} {dir : Dir} {x : BlockIn} {w : BlockOut}
    (h : blockOf p mode dir x = .ok w) :
    ∃ y, prim p (opOf mode dir) x.alg x.key (inputOf mode dir x) = .ok y ∧
      w.out = outputOf mode dir x y ∧ w.cv = cvOf mode dir x y ∧
      (if mode = .ctr then ctrinc x.ctrr = some w.ctrr else w.ctrr = x.ctrr) := by
  cases mode <;> cases dir <;>
    simp only [blockOf, ecbEncBlock, ecbDecBlock, cbcEncBlock, cbcDecBlock, cfbEncBlock, cfbDecBlock, ofbBlock,
      ctrBlock, opOf, inputOf, outputOf, cvOf] at * <;>
    split at h <;> try cases h
  all_goals try exact ⟨_, by assumption, rfl, rfl, by simp⟩
  all_goals
    split at h <;> cases h
    exact ⟨_, by assumption, rfl, rfl, by simpa⟩

/-- A block step that answers a request and has a counter to go on with completes (R213). -/
theorem blockOf_of_prim {p : Platform} {mode : Mode} {dir : Dir} {x : BlockIn} {y : Block}
    (h : prim p (opOf mode dir) x.alg x.key (inputOf mode dir x) = .ok y) (hc : counterInRange x.ctrr = true) :
    blockOf p mode dir x =
      .ok ⟨outputOf mode dir x y, cvOf mode dir x y, if mode = .ctr then ctrScan x.ctrr else x.ctrr⟩ := by
  cases mode <;> cases dir <;>
    simp_all [blockOf, ecbEncBlock, ecbDecBlock, cbcEncBlock, cbcDecBlock, cfbEncBlock, cfbDecBlock, ofbBlock,
      ctrBlock, opOf, inputOf, outputOf, cvOf, ctrinc]

/-- A block step stops on a failed request (R250) or, in CTR, on a counter byte above 127 (U5), and for no other reason. -/
theorem blockOf_error {p : Platform} {mode : Mode} {dir : Dir} {x : BlockIn} {e : BlockStop}
    (h : blockOf p mode dir x = .error e) :
    (e = .raises .cipherPrimitiveError ∧
      prim p (opOf mode dir) x.alg x.key (inputOf mode dir x) = .error .cipherPrimitiveError) ∨
    (e = .noMeaning .counterByteAbove127 ∧ mode = .ctr ∧ counterInRange x.ctrr = false) := by
  cases hp : prim p (opOf mode dir) x.alg x.key (inputOf mode dir x) with
  | error e' =>
    obtain rfl := prim_error hp
    left
    cases mode <;> cases dir <;>
      simp_all [blockOf, ecbEncBlock, ecbDecBlock, cbcEncBlock, cbcDecBlock, cfbEncBlock, cfbDecBlock, ofbBlock,
        ctrBlock, opOf, inputOf]
  | ok y =>
    right
    cases hc : counterInRange x.ctrr with
    | true => rw [blockOf_of_prim hp hc] at h; cases h
    | false =>
      cases mode <;> cases dir <;>
        simp_all [blockOf, ecbEncBlock, ecbDecBlock, cbcEncBlock, cbcDecBlock, cfbEncBlock, cfbDecBlock, ofbBlock,
          ctrBlock, opOf, inputOf, ctrinc]

/-- A completed block step keeps the counter in range (R37 e) and the nonce half (R33). -/
theorem blockOf_ok_counter {p : Platform} {mode : Mode} {dir : Dir} {x : BlockIn} {w : BlockOut}
    (h : blockOf p mode dir x = .ok w) :
    w.ctrr.nonceHalf = x.ctrr.nonceHalf ∧ (counterInRange x.ctrr = true → counterInRange w.ctrr = true) := by
  obtain ⟨_, _, _, _, hc⟩ := blockOf_ok h
  split at hc
  · refine ⟨ctrinc_nonceHalf hc, fun hr => ?_⟩
    have := ctrinc_ctrAt x.ctrr x.ctrr.counterValue
    rw [ctrAt_counterValue _ hr, hc] at this
    rw [Option.some.inj this]; exact ctrAt_inRange _ _
  · rw [hc]; exact ⟨rfl, id⟩

/-! ### One engine step of a command -/

/-- Everything `advance` does when it answers a next state. -/
theorem advance_next {f : BlockIn → Except BlockStop BlockOut} {s t : State} (h : advance f s = .next t) :
    (s.bi < s.n ∧ ∃ m w, s.msg[s.bi]? = some m ∧ f ⟨s.alg, s.keyn, m, s.cv, s.ctrr⟩ = .ok w ∧ t = commitBlock w s) ∨
    (s.bi < s.n ∧ ∃ m e, s.msg[s.bi]? = some m ∧ f ⟨s.alg, s.keyn, m, s.cv, s.ctrr⟩ = .error (.raises e) ∧
      t = errorEntry e s) ∨
    (s.bi = s.n ∧ ∃ bs, Memory.gather s.outb 0 s.n = some bs ∧
      t = { s with out := join bs, status := finishStatus s.status }) := by
  unfold advance at h
  split at h
  next hb =>
    unfold blockStep at h
    split at h
    · cases h
    next m hm =>
      split at h
      next w hw => cases h; exact .inl ⟨hb, m, w, hm, hw, rfl⟩
      next e he => cases h; exact .inr (.inl ⟨hb, m, e, hm, he, rfl⟩)
      · cases h
  next =>
    split at h
    next he =>
      unfold finish at h
      split at h
      next bs hbs => cases h; exact .inr (.inr ⟨he, bs, hbs, rfl⟩)
      · cases h
    · cases h

/-- Outside a run every command starts one (R211). -/
theorem exec_notBusy (i : Instr) (s : State) (h : s.st ≠ .busy) : exec i s = .next (start i.command s) := by
  cases i <;>
    simp [exec, execEcbEnc, execEcbDec, execCbcEnc, execCbcDec, execCfbEnc, execCfbDec, execOfbEnc, execOfbDec,
      execCtrEnc, execCtrDec, execFb5Enc, execFb6Enc, execFb7Enc, execFb5Dec, execFb6Dec, execFb7Dec, command, h,
      Instr.command]

/-- In a run of its own a command goes on with the dispatched block step (R213). -/
theorem exec_busy (i : Instr) (s : State) (h : s.st = .busy)
    (hp : inProgress i.command.mode i.command.dir s = true) :
    exec i s = advance (blockOf Config.platform s.mode s.dir) s := by
  cases i <;> simp only [Instr.command] at hp <;>
    simp only [exec, execEcbEnc, execEcbDec, execCbcEnc, execCbcDec, execCfbEnc, execCfbDec, execOfbEnc, execOfbDec,
      execCtrEnc, execCtrDec, execFb5Enc, execFb6Enc, execFb7Enc, execFb5Dec, execFb6Dec, execFb7Dec, command, h, hp,
      if_true] <;>
    simp [inProgress, dirFree] at hp
  all_goals
    first
      | rw [hp.1, hp.2]; rfl
      | rw [hp]; cases s.dir <;> rfl

theorem exec_other (i : Instr) (s : State) (h : s.st = .busy)
    (hp : inProgress i.command.mode i.command.dir s = false) : exec i s = .refused .otherCommandInProgress := by
  cases i <;> simp only [Instr.command] at hp <;>
    simp [exec, execEcbEnc, execEcbDec, execCbcEnc, execCbcDec, execCfbEnc, execCfbDec, execOfbEnc, execOfbDec,
      execCtrEnc, execCtrDec, execFb5Enc, execFb6Enc, execFb7Enc, execFb5Dec, execFb6Dec, execFb7Dec, command, h, hp]

theorem latched_command (s : State) : (latched s).command = ⟨s.mode, s.dir, s.alg⟩ := by
  unfold latched; split <;> simp_all [Instr.command]

/-- The engine asks only for the command that is in progress. -/
theorem inProgress_latched (s : State) : inProgress (latched s).command.mode (latched s).command.dir s = true := by
  simp [latched_command, inProgress]

/-- A move of the engine in a run (R213). -/
theorem engineMove_busy (s : State) (h : s.st = .busy) :
    engineMove s = advance (blockOf Config.platform s.mode s.dir) s := by
  rw [engineMove, if_pos h, exec_busy _ s h (inProgress_latched s)]

theorem engineMove_notBusy (s : State) (h : s.st ≠ .busy) : engineMove s = .next s := by
  rw [engineMove, if_neg h]

theorem decodeCmd_command (c : BitVec 5) : (decodeCmd c).command = fieldsOf c := by
  revert c; decide

theorem startMove_busy (s : State) (h : s.st = .busy) : startMove s = .next { s with answer := .nothing } := by
  rw [startMove, if_pos h]

theorem startMove_notBusy (s : State) (h : s.st ≠ .busy) :
    startMove s = .next (start (fieldsOf s.cmd) { s with answer := .nothing }) := by
  rw [startMove, if_neg h, exec_notBusy _ { s with answer := .nothing } h, decodeCmd_command]

/-! ### One step of the machine -/

/-- The steps of a run in progress: the engine's move, what each kind of it requires and leaves. -/
inductive EngineStep (s t : State) : Prop where
  /-- A block step completes (R213). -/
  | block (hb : s.st = .busy) (hi : s.bi < s.n) (m : Block) (w : BlockOut) (hm : s.msg[s.bi]? = some m)
      (hw : blockOf Config.platform s.mode s.dir ⟨s.alg, s.keyn, m, s.cv, s.ctrr⟩ = .ok w) (ht : t = commitBlock w s)
  /-- A block step raises (R250). -/
  | raises (hb : s.st = .busy) (hi : s.bi < s.n) (m : Block) (hm : s.msg[s.bi]? = some m)
      (hw : blockOf Config.platform s.mode s.dir ⟨s.alg, s.keyn, m, s.cv, s.ctrr⟩ =
        .error (.raises .cipherPrimitiveError))
      (ht : t = errorEntry .cipherPrimitiveError s)
  /-- FINISH (R216). -/
  | finish (hb : s.st = .busy) (hi : s.bi = s.n) (bs : List Block) (hg : Memory.gather s.outb 0 s.n = some bs)
      (ht : t = { s with out := join bs, status := finishStatus s.status })
  /-- No engine step is enabled (R265). -/
  | idle (hb : s.st ≠ .busy) (ht : t = s)

theorem engineMove_next {s t : State} (h : engineMove s = .next t) : EngineStep s t := by
  by_cases hb : s.st = .busy
  · rw [engineMove_busy s hb] at h
    rcases advance_next h with ⟨hi, m, w, hm, hw, ht⟩ | ⟨hi, m, e, hm, hw, ht⟩ | ⟨hi, bs, hg, ht⟩
    · exact .block hb hi m w hm hw ht
    · rcases blockOf_error hw with ⟨he, _⟩ | ⟨he, _⟩
      · cases he; exact .raises hb hi m hm hw ht
      · cases he
    · exact .finish hb hi bs hg ht
  · rw [engineMove_notBusy s hb] at h
    cases h; exact .idle hb rfl

/-- Everything a step can do: the next move of the agenda, and what it leaves. -/
inductive StepCase (s t : State) : Prop where
  /-- The agenda is empty: the engine moves. -/
  | engineLast (ha : s.agenda = []) (h : EngineStep s t)
  /-- The engine's turn. -/
  | engineNext (rest : List Move) (ha : s.agenda = .engine :: rest) (h : EngineStep { s with agenda := rest } t)
  /-- `WriteBuf` (R52). -/
  | writeBuf (rest : List Move) (x : RawBuf) (b : List Byte) (ha : s.agenda = .host (.writeBuf x b) :: rest)
      (ht : t = Machine.writeBuf Config.platform x b { s with agenda := rest })
  /-- `WriteCmd` (R52). -/
  | writeCmd (rest : List Move) (c : BitVec 5) (ha : s.agenda = .host (.writeCmd c) :: rest)
      (ht : t = Machine.writeCmd c { s with agenda := rest })
  /-- `Start` outside a run (R211). -/
  | start (rest : List Move) (ha : s.agenda = .host .start :: rest) (hb : s.st ≠ .busy)
      (ht : t = Machine.start (fieldsOf s.cmd) { s with agenda := rest, answer := .nothing })
  /-- `Start` in a run is ignored (R211). -/
  | startIgnored (rest : List Move) (ha : s.agenda = .host .start :: rest) (hb : s.st = .busy)
      (ht : t = { s with agenda := rest, answer := .nothing })
  /-- `ReadStatus` (R52). -/
  | readStatus (rest : List Move) (ha : s.agenda = .host .readStatus :: rest)
      (ht : t = Machine.readStatus { s with agenda := rest })
  /-- `ReadOut` (R52). -/
  | readOut (rest : List Move) (ha : s.agenda = .host .readOut :: rest)
      (ht : t = Machine.readOut { s with agenda := rest })
  /-- `Reset` (R280). -/
  | reset (rest : List Move) (ha : s.agenda = .host .reset :: rest) (ht : t = hostReset { s with agenda := rest })

theorem step_next {s t : State} (h : step s = .next t) : StepCase s t := by
  unfold step nextMove at h
  split at h
  next ha => exact .engineLast ha (engineMove_next h)
  next rest ha => exact .engineNext rest ha (engineMove_next h)
  next op rest ha =>
    cases op with
    | writeBuf x b => cases h; exact .writeBuf rest x b ha rfl
    | writeCmd c => cases h; exact .writeCmd rest c ha rfl
    | start =>
      simp only [hostMove] at h
      by_cases hb : s.st = .busy
      · rw [startMove_busy { s with agenda := rest } hb] at h; cases h; exact .startIgnored rest ha hb rfl
      · rw [startMove_notBusy { s with agenda := rest } hb] at h; cases h; exact .start rest ha hb rfl
    | readStatus => cases h; exact .readStatus rest ha rfl
    | readOut => cases h; exact .readOut rest ha rfl
    | reset => cases h; exact .reset rest ha rfl

end Sys2Proof.Machine
end

