-- ==== Sys2Proof/Laws/Invariant.lean ====
section
/-! SUPPORT. What each shared operation does to the invariant of R37, and the plain laws of `SameRun`. -/

namespace Sys2Proof.Machine

open Sys2Proof

/-! ### The invariant -/

/-- START establishes the invariant; of the old state it needs only the capacities. -/
theorem State.Inv.of_start {s : State} (c : Command)
    (h : ∀ x, fits (capacity Config.platform x) (s.raw x).length = true) : (start c s).Inv where
  keyLength _ := by simp [operandKey]
  blockCount _ := by simp [operandMsg, operandN]
  index _ := by simp
  written _ := by simp
  counter _ := by rw [start_ctrr, operandCtrr_eq]; exact ctrAt_inRange _ _
  errIff := by simp
  errCode := by simp
  outLength := by simp
  doneAll := by simp
  capacities x := by have := h x; cases x <;> exact this
  blockCapacity _ := fits_ceil8 _ _ (h .rawMsg)

/-- A completed block step keeps it, if the counter half it writes is in range. -/
theorem State.Inv.of_commitBlock {s : State} (h : s.Inv) (hb : s.st = .busy) (hi : s.bi < s.n) (w : BlockOut)
    (hw : counterInRange w.ctrr = true) : (commitBlock w s).Inv where
  keyLength _ := h.keyLength (by simp [hb])
  blockCount _ := h.blockCount (by simp [hb])
  index _ := hi
  written _ := (Memory.write_keys_range _ _ _ (h.written (by simp [hb]))).2
  counter _ := hw
  errIff := h.errIff
  errCode := h.errCode
  outLength := h.outLength
  doneAll hd := absurd (hb.symm.trans hd) (by decide)
  capacities x := by have := h.capacities x; cases x <;> exact this
  blockCapacity _ := h.blockCapacity (by simp [hb])

/-- The error entry keeps it. -/
theorem State.Inv.of_errorEntry {s : State} (h : s.Inv) (hb : s.st = .busy) :
    (errorEntry .cipherPrimitiveError s).Inv where
  keyLength _ := h.keyLength (by simp [hb])
  blockCount _ := h.blockCount (by simp [hb])
  index _ := h.index (by simp [hb])
  written _ := h.written (by simp [hb])
  counter _ := h.counter (by simp [hb])
  errIff := by simp [errOfError]
  errCode := by simp [errOfError]
  outLength := by simp
  doneAll hd := by simp at hd
  capacities x := by have := h.capacities x; cases x <;> exact this
  blockCapacity _ := h.blockCapacity (by simp [hb])

/-- The next moves are no part of it. -/
theorem State.Inv.of_agenda {s : State} (h : s.Inv) (r : List Move) : State.Inv { s with agenda := r } :=
  ⟨h.1, h.2, h.3, h.4, h.5, h.6, h.7, h.8, h.9, fun x => by have := h.capacities x; cases x <;> exact this, h.11⟩

/-- The answer port is no part of it. -/
theorem State.Inv.of_answer {s : State} (h : s.Inv) (r : HostAnswer) : State.Inv { s with answer := r } :=
  ⟨h.1, h.2, h.3, h.4, h.5, h.6, h.7, h.8, h.9, fun x => by have := h.capacities x; cases x <;> exact this, h.11⟩

/-- `CMD` is no part of it. -/
theorem State.Inv.of_cmd {s : State} (h : s.Inv) (r : BitVec 5) : State.Inv { s with cmd := r } :=
  ⟨h.1, h.2, h.3, h.4, h.5, h.6, h.7, h.8, h.9, fun x => by have := h.capacities x; cases x <;> exact this, h.11⟩

/-- `WriteBuf` keeps it. -/
theorem State.Inv.of_writeBuf {s : State} (h : s.Inv) (x : RawBuf) (b : List Byte) :
    (writeBuf Config.platform x b s).Inv := by
  refine ⟨?_, ?_, ?_, ?_, ?_, ?_, ?_, ?_, ?_, fun y => writeBuf_fits _ _ _ _ _ (h.capacities y), ?_⟩ <;>
    simp only [writeBuf_st, writeBuf_err, writeBuf_keyn, writeBuf_alg, writeBuf_n, writeBuf_msg, writeBuf_bi,
      writeBuf_outb, writeBuf_ctrr, writeBuf_out]
  exacts [h.1, h.2, h.3, h.4, h.5, h.6, h.7, h.8, h.9, h.11]

/-! ### The same run -/

theorem SameRun.refl (s : State) : SameRun s s := by constructor <;> rfl

theorem SameRun.symm {s t : State} (h : SameRun s t) : SameRun t s :=
  ⟨h.1.symm, h.2.symm, h.3.symm, h.4.symm, h.5.symm, h.6.symm, h.7.symm, h.8.symm, h.9.symm, h.10.symm, h.11.symm,
    h.12.symm, h.13.symm⟩

theorem SameRun.trans {s t u : State} (h : SameRun s t) (g : SameRun t u) : SameRun s u :=
  ⟨h.1.trans g.1, h.2.trans g.2, h.3.trans g.3, h.4.trans g.4, h.5.trans g.5, h.6.trans g.6, h.7.trans g.7,
    h.8.trans g.8, h.9.trans g.9, h.10.trans g.10, h.11.trans g.11, h.12.trans g.12, h.13.trans g.13⟩

theorem SameRun.st_eq {s t : State} (h : SameRun s t) : s.st = t.st := by unfold State.st; rw [h.status]

end Sys2Proof.Machine
end

