-- ==== Sys2Proof/Laws/PerInstr.lean ====
section
/-! SUPPORT. Statements made for every command, one lemma per constructor: the fields its command word carries. -/

namespace Sys2Proof.Laws.WordFields

open Sys2Proof

/-- The command word of a command, read field by field (R80, R85), gives the mode, the direction and the algorithm the
command stands for (R83, R84, R86). -/
def Statement (i : Instr) : Prop := fieldsOf (encode i) = i.command

theorem ecbEnc (a : Alg) : Statement (.ecbEnc a) := by cases a <;> rfl
theorem cbcEnc (a : Alg) : Statement (.cbcEnc a) := by cases a <;> rfl
theorem cfbEnc (a : Alg) : Statement (.cfbEnc a) := by cases a <;> rfl
theorem ofbEnc (a : Alg) : Statement (.ofbEnc a) := by cases a <;> rfl
theorem ctrEnc (a : Alg) : Statement (.ctrEnc a) := by cases a <;> rfl
theorem fb5Enc (a : Alg) : Statement (.fb5Enc a) := by cases a <;> rfl
theorem fb6Enc (a : Alg) : Statement (.fb6Enc a) := by cases a <;> rfl
theorem fb7Enc (a : Alg) : Statement (.fb7Enc a) := by cases a <;> rfl
theorem ecbDec (a : Alg) : Statement (.ecbDec a) := by cases a <;> rfl
theorem cbcDec (a : Alg) : Statement (.cbcDec a) := by cases a <;> rfl
theorem cfbDec (a : Alg) : Statement (.cfbDec a) := by cases a <;> rfl
theorem ofbDec (a : Alg) : Statement (.ofbDec a) := by cases a <;> rfl
theorem ctrDec (a : Alg) : Statement (.ctrDec a) := by cases a <;> rfl
theorem fb5Dec (a : Alg) : Statement (.fb5Dec a) := by cases a <;> rfl
theorem fb6Dec (a : Alg) : Statement (.fb6Dec a) := by cases a <;> rfl
theorem fb7Dec (a : Alg) : Statement (.fb7Dec a) := by cases a <;> rfl

end Sys2Proof.Laws.WordFields
end

