-- ==== Sys2Proof/Laws/Runs.lean ====
section
/-! SUPPORT. Runs of many steps, taken one at a time: the host's `Core.run`, and the blocks of a whole run. -/

namespace Sys2Proof.Laws

open Sys2Proof Sys2Proof.Machine

/-- The first step of a machine's run. -/
theorem core_run_succ_of_next (M : Host.Core) {k : Nat} {s u : M.State} (h : M.step s = .next u) :
    M.run (k + 1) s = M.run k u := by
  rw [Host.Core.run, h]

/-- A run of `k + 1` steps that gives a state has a first step that gives one. -/
theorem core_next_of_run_succ (M : Host.Core) {k : Nat} {s t : M.State} (h : M.run (k + 1) s = .next t) :
    ∃ u : M.State, M.step s = .next u ∧ M.run k u = .next t := by
  rw [Host.Core.run] at h
  split at h
  next u hs => exact ⟨u, hs, h⟩
  next => cases h
  next => cases h

theorem run_succ_of_next {k : Nat} {s u : State} (h : step s = .next u) :
    Sys2Proof.core.run (k + 1) s = Sys2Proof.core.run k u := core_run_succ_of_next Sys2Proof.core h

theorem next_of_run_succ {k : Nat} {s t : State} (h : Sys2Proof.core.run (k + 1) s = .next t) :
    ∃ u : State, step s = .next u ∧ Sys2Proof.core.run k u = .next t := core_next_of_run_succ Sys2Proof.core h

/-- With no move listed the engine moves. -/
theorem step_of_agenda_nil {s : State} (h : s.agenda = []) : step s = engineMove s := by
  unfold step nextMove; rw [h]

/-- Outside a run, with no move listed, nothing changes any more (R265). -/
theorem run_of_notBusy (k : Nat) {s : State} (hb : s.st ≠ .busy) (ha : s.agenda = []) :
    Sys2Proof.core.run k s = .next s := by
  induction k with
  | zero => rfl
  | succ k ih =>
    rw [run_succ_of_next ((step_of_agenda_nil ha).trans (engineMove_notBusy s hb)), ih]

/-! ### The blocks of a whole run -/

theorem runBlocks_nil_ok {f : BlockIn → Except BlockStop BlockOut} {alg : Alg} {key : List Byte} {cv ct : Block}
    {os : List Block} : runBlocks f alg key [] cv ct = .ok os ↔ os = [] := by
  simp [runBlocks, eq_comm]

/-- The first block of a run that succeeds, and the rest of it. -/
theorem runBlocks_cons_ok {f : BlockIn → Except BlockStop BlockOut} {alg : Alg} {key : List Byte} {m : Block}
    {ms : List Block} {cv ct : Block} {os : List Block} :
    runBlocks f alg key (m :: ms) cv ct = .ok os ↔
      ∃ w rest, f ⟨alg, key, m, cv, ct⟩ = .ok w ∧ runBlocks f alg key ms w.cv w.ctrr = .ok rest ∧
        os = w.out :: rest := by
  rw [runBlocks]
  cases f ⟨alg, key, m, cv, ct⟩ with
  | error e => simp
  | ok w =>
    cases h : runBlocks f alg key ms w.cv w.ctrr with
    | error e => simp [h]
    | ok r => simp [h, eq_comm]

/-- A run gives one block for each block it is given. -/
theorem runBlocks_length {f : BlockIn → Except BlockStop BlockOut} {alg : Alg} {key : List Byte} {ms : List Block}
    {cv ct : Block} {os : List Block} (h : runBlocks f alg key ms cv ct = .ok os) : os.length = ms.length := by
  induction ms generalizing cv ct os with
  | nil => rw [runBlocks_nil_ok.1 h]
  | cons m ms ih =>
    obtain ⟨w, r, -, h2, rfl⟩ := runBlocks_cons_ok.1 h
    simp [ih h2]

/-- `CTRR` as START loads it is `ctr128(0)` behind the nonce (R33). -/
theorem nonceAndZero_eq_ctrAt (no : List Byte) :
    blockOfBytes (normalize no Config.nonceBytes ++ List.replicate Config.ctrBytes Config.ctrInit) =
      ctrAt (zext8 (normalize no 4)) 0 := by
  have hl : (normalize no 4).length = 4 := by simp
  simp only [Config.nonceBytes]
  generalize normalize no 4 = l at *
  match l, hl with
  | [_, _, _, _], _ => rfl

/-- A run that succeeds is the join of its blocks (R219). -/
theorem run_eq_ok {p : Platform} {m k iv no out : List Byte} {c : Command} :
    run p m k iv no c = .ok out ↔
      ∃ os, runBlocks (blockOf p c.mode c.dir) c.alg (normalize k (Config.keyBytes c.alg)) (split m)
        (zext8 (normalize iv 8)) (ctrAt (zext8 (normalize no 4)) 0) = .ok os ∧ out = join os := by
  rw [run, nonceAndZero_eq_ctrAt]
  show (match runBlocks (blockOf p c.mode c.dir) c.alg (normalize k (Config.keyBytes c.alg)) (split m)
      (zext8 (normalize iv 8)) _ with
    | .error e => Except.error e
    | .ok os => .ok (join os)) = _ ↔ _
  cases runBlocks (blockOf p c.mode c.dir) c.alg (normalize k (Config.keyBytes c.alg)) (split m)
      (zext8 (normalize iv 8)) (ctrAt (zext8 (normalize no 4)) 0) with
  | error e => simp
  | ok os => simp [eq_comm]

end Sys2Proof.Laws
end

