-- ==== Sys2Proof/Tests/Slice0.lean ====
section
/-! SUPPORT. Small tests, with the expected values of spec 95_test_vectors.md, and one witness for each obligation that has
hypotheses. -/

namespace Sys2Proof.Tests

open Sys2Proof Sys2Proof.Machine

/-! ### The stand-in primitive of 95_test_vectors.md, section 1 -/

/-- `kk(alg, key)[j]`. -/
def keySum (alg : Alg) (k : List Byte) (j : Nat) : Byte :=
  match alg with
  | .single => k.getD j 0
  | .triple => k.getD j 0 + k.getD (8 + j) 0 + k.getD (16 + j) 0

/-- `E_T`. -/
def standInE (alg : Alg) (k : List Byte) (b : Block) : Option Block :=
  some ⟨b.b1 + keySum alg k 0 + 1, b.b2 + keySum alg k 1 + 1, b.b3 + keySum alg k 2 + 1, b.b4 + keySum alg k 3 + 1,
    b.b5 + keySum alg k 4 + 1, b.b6 + keySum alg k 5 + 1, b.b7 + keySum alg k 6 + 1, b.b0 + keySum alg k 7 + 1⟩

/-- `D_T`. -/
def standInD (alg : Alg) (k : List Byte) (c : Block) : Option Block :=
  some ⟨c.b7 - keySum alg k 7 - 1, c.b0 - keySum alg k 0 - 1, c.b1 - keySum alg k 1 - 1, c.b2 - keySum alg k 2 - 1,
    c.b3 - keySum alg k 3 - 1, c.b4 - keySum alg k 4 - 1, c.b5 - keySum alg k 5 - 1, c.b6 - keySum alg k 6 - 1⟩

/-- The platform of the vectors. -/
def standIn : Platform := ⟨standInE, standInD, none, none, fun _ => 0⟩

/-- `T_fail(f)`: a request whose input block begins with `f` fails. -/
def failing (f : Byte) : Platform :=
  ⟨fun alg k b => if b.b0 = f then none else standInE alg k b,
    fun alg k b => if b.b0 = f then none else standInD alg k b, none, none, fun _ => 0⟩

theorem add_one_eq_iff (x k y : Byte) : x + k + 1 = y ↔ y - k - 1 = x := by
  constructor
  · rintro rfl; bv_omega
  · rintro rfl; bv_omega

/-- `PRIM_INVERSE` holds of the stand-in, as section 1 says. -/
theorem standIn_inverse : standIn.Inverse := by
  intro alg k b c _
  cases b; cases c
  simp only [standIn, standInE, standInD, Option.some.injEq, Block.mk.injEq, add_one_eq_iff]
  constructor
  · rintro ⟨h0, h1, h2, h3, h4, h5, h6, h7⟩; exact ⟨h7, h0, h1, h2, h3, h4, h5, h6⟩
  · rintro ⟨h7, h0, h1, h2, h3, h4, h5, h6⟩; exact ⟨h0, h1, h2, h3, h4, h5, h6, h7⟩

/-- `PRIM_INJECTIVE` holds of the stand-in. -/
theorem standIn_injective : standIn.Injective := by
  intro alg k b b' c hk h h'
  have := (standIn_inverse alg k b c hk).1 h
  rw [(standIn_inverse alg k b' c hk).1 h'] at this
  exact (Option.some.inj this).symm

/-! ### Well-formedness: each check refuses an ill-formed term -/

theorem test_wf_command_word : wfCommandWord 31 = true ∧ wfCommandWord 32 = false := by decide
theorem test_wf_direction : wfDirection "decrypt" = true ∧ wfDirection "decipher" = false := by decide
theorem test_wf_algorithm : wfAlgorithm "triple" = true ∧ wfAlgorithm "double" = false := by decide
theorem test_wf_call : CallSelectors.wf ⟨"XYZ", "encrypt", "single"⟩ = true ∧
    CallSelectors.wf ⟨"CBC", "Encrypt", "single"⟩ = false ∧ CallSelectors.wf ⟨"CBC", "encrypt", ""⟩ = false := by decide
/-- No command is ill-formed: there is no illegal encoding (R86). -/
theorem test_wf_every_command : ∀ c : BitVec 5, (decodeCmd c).wf = true := by decide

/-! ### Decoding: words written out bit by bit from R80 and R83, and V50 to V54 -/

theorem test_decode_ecbEnc : decodeTableWord 8 0b00000 = some (.ecbEnc .single) ∧ decodeTableWord 8 0b10000 = some (.ecbEnc .triple) := by
  decide
theorem test_decode_cbcEnc : decodeTableWord 8 0b00001 = some (.cbcEnc .single) ∧ decodeTableWord 8 0b10001 = some (.cbcEnc .triple) := by
  decide
theorem test_decode_cfbEnc : decodeTableWord 8 0b00010 = some (.cfbEnc .single) ∧ decodeTableWord 8 0b10010 = some (.cfbEnc .triple) := by
  decide
theorem test_decode_ofbEnc : decodeTableWord 8 0b00011 = some (.ofbEnc .single) ∧ decodeTableWord 8 0b10011 = some (.ofbEnc .triple) := by
  decide
theorem test_decode_ctrEnc : decodeTableWord 8 0b00100 = some (.ctrEnc .single) ∧ decodeTableWord 8 0b10100 = some (.ctrEnc .triple) := by
  decide
theorem test_decode_fb5Enc : decodeTableWord 8 0b00101 = some (.fb5Enc .single) ∧ decodeTableWord 8 0b10101 = some (.fb5Enc .triple) := by
  decide
theorem test_decode_fb6Enc : decodeTableWord 8 0b00110 = some (.fb6Enc .single) ∧ decodeTableWord 8 0b10110 = some (.fb6Enc .triple) := by
  decide
theorem test_decode_fb7Enc : decodeTableWord 8 0b00111 = some (.fb7Enc .single) ∧ decodeTableWord 8 0b10111 = some (.fb7Enc .triple) := by
  decide
theorem test_decode_ecbDec : decodeTableWord 8 0b01000 = some (.ecbDec .single) ∧ decodeTableWord 8 0b11000 = some (.ecbDec .triple) := by
  decide
theorem test_decode_cbcDec : decodeTableWord 8 0b01001 = some (.cbcDec .single) ∧ decodeTableWord 8 0b11001 = some (.cbcDec .triple) := by
  decide
theorem test_decode_cfbDec : decodeTableWord 8 0b01010 = some (.cfbDec .single) ∧ decodeTableWord 8 0b11010 = some (.cfbDec .triple) := by
  decide
theorem test_decode_ofbDec : decodeTableWord 8 0b01011 = some (.ofbDec .single) ∧ decodeTableWord 8 0b11011 = some (.ofbDec .triple) := by
  decide
theorem test_decode_ctrDec : decodeTableWord 8 0b01100 = some (.ctrDec .single) ∧ decodeTableWord 8 0b11100 = some (.ctrDec .triple) := by
  decide
theorem test_decode_fb5Dec : decodeTableWord 8 0b01101 = some (.fb5Dec .single) ∧ decodeTableWord 8 0b11101 = some (.fb5Dec .triple) := by
  decide
theorem test_decode_fb6Dec : decodeTableWord 8 0b01110 = some (.fb6Dec .single) ∧ decodeTableWord 8 0b11110 = some (.fb6Dec .triple) := by
  decide
theorem test_decode_fb7Dec : decodeTableWord 8 0b01111 = some (.fb7Dec .single) ∧ decodeTableWord 8 0b11111 = some (.fb7Dec .triple) := by
  decide
theorem test_decode_rejects : decode [0b00100000] = .error .notFiveBits ∧ decode [] = .error .noByte ∧
    decodeTableWord 8 0b10000001 = none := by decide
theorem test_modesel : modesel "ECB" = 0 ∧ modesel "CBC" = 1 ∧ modesel "CFB" = 2 ∧ modesel "OFB" = 3 ∧ modesel "CTR" = 4 ∧
    modesel "XYZ" = 0 ∧ modesel "" = 0 ∧ modesel "cbc" = 0 ∧ modesel "CBC " = 0 ∧ modesel "GCM" = 0 := by decide
theorem test_call_word : CallSelectors.cmd ⟨"OFB", "decrypt", "triple"⟩ = some 0b11011#5 ∧
    CallSelectors.cmd ⟨"XYZ", "encrypt", "single"⟩ = some 0b00000#5 := by decide

/-! ### Block utilities: V1 to V19 -/

/-- `41×10`. -/
def fortyOnes : List Byte := List.replicate 10 0x41

theorem test_split_empty : split [] = [] := by decide
theorem test_split_one_byte : split [0xFF] = [⟨0xFF, 0x00, 0x00, 0x00, 0x00, 0x00, 0x00, 0x00⟩] := by decide
theorem test_split_exact : split [0x01, 0x02, 0x03, 0x04, 0x05, 0x06, 0x07, 0x08] = [⟨0x01, 0x02, 0x03, 0x04, 0x05, 0x06, 0x07, 0x08⟩] := by decide
theorem test_split_ten : split fortyOnes = [⟨0x41, 0x41, 0x41, 0x41, 0x41, 0x41, 0x41, 0x41⟩, ⟨0x41, 0x41, 0x00, 0x00, 0x00, 0x00, 0x00, 0x00⟩] := by decide
theorem test_join_keeps_padding : join [⟨0x41, 0x41, 0x41, 0x41, 0x41, 0x41, 0x41, 0x41⟩, ⟨0x41, 0x41, 0x00, 0x00, 0x00, 0x00, 0x00, 0x00⟩] = fortyOnes ++ List.replicate 6 0 := by
  decide
theorem test_xor : xorBlock ⟨0x41, 0x41, 0x00, 0x00, 0x00, 0x00, 0x00, 0x00⟩ ⟨0x42, 0x43, 0x44, 0x45, 0x46, 0x47, 0x48, 0x49⟩ = ⟨0x03, 0x02, 0x44, 0x45, 0x46, 0x47, 0x48, 0x49⟩ := by
  decide
theorem test_xor_mismatch : xorBytes (List.replicate 8 0) (List.replicate 7 0) = .error (.lengthMismatch 8 7) := by decide
theorem test_normalize_truncates : normalize [0x00, 0x01, 0x02, 0x03, 0x04, 0x05, 0x06, 0x07, 0x08, 0x09] 8 = [0x00, 0x01, 0x02, 0x03, 0x04, 0x05, 0x06, 0x07] := by
  decide
theorem test_normalize_repeats : normalize [0xAA, 0xBB, 0xCC] 8 = [0xAA, 0xBB, 0xCC, 0xAA, 0xBB, 0xCC, 0xAA, 0xBB] ∧
    normalize [] 4 = [0, 0, 0, 0] := by decide
theorem test_strip : strip (fortyOnes ++ List.replicate 6 0) = fortyOnes ∧ strip [0, 0] = [] ∧ strip [0, 1] = [0, 1] := by decide
theorem test_wide_path : Block.toWide ⟨0x01, 0x02, 0x03, 0x04, 0x05, 0x06, 0x07, 0x08⟩ = 0x0102030405060708#64 := by decide

/-! ### The counter: V40 to V43d -/

theorem test_ctrinc_adds_one : ctrinc ⟨0xA0, 0xA1, 0xA2, 0xA3, 0x00, 0x00, 0x00, 0x00⟩ = some ⟨0xA0, 0xA1, 0xA2, 0xA3, 0x00, 0x00, 0x00, 0x01⟩ := by
  decide
theorem test_ctrinc_holds_127 : ctrinc ⟨0xA0, 0xA1, 0xA2, 0xA3, 0x00, 0x00, 0x00, 0x7E⟩ = some ⟨0xA0, 0xA1, 0xA2, 0xA3, 0x00, 0x00, 0x00, 0x7F⟩ := by
  decide
theorem test_ctrinc_carries_at_127 : ctrinc ⟨0xA0, 0xA1, 0xA2, 0xA3, 0x00, 0x00, 0x00, 0x7F⟩ = some ⟨0xA0, 0xA1, 0xA2, 0xA3, 0x00, 0x00, 0x01, 0x00⟩ := by
  decide
theorem test_ctrinc_carries_twice : ctrinc ⟨0xA0, 0xA1, 0xA2, 0xA3, 0x00, 0x00, 0x7F, 0x7F⟩ = some ⟨0xA0, 0xA1, 0xA2, 0xA3, 0x00, 0x01, 0x00, 0x00⟩ := by
  decide
theorem test_ctrinc_carries_thrice : ctrinc ⟨0xA0, 0xA1, 0xA2, 0xA3, 0x00, 0x7F, 0x7F, 0x7F⟩ = some ⟨0xA0, 0xA1, 0xA2, 0xA3, 0x01, 0x00, 0x00, 0x00⟩ := by
  decide
theorem test_ctrinc_wraps : ctrinc ⟨0xA0, 0xA1, 0xA2, 0xA3, 0x7F, 0x7F, 0x7F, 0x7F⟩ = some ⟨0xA0, 0xA1, 0xA2, 0xA3, 0x00, 0x00, 0x00, 0x00⟩ := by
  decide
theorem test_ctrinc_leaves_other_bytes : ctrinc ⟨0xFF, 0xFF, 0xFF, 0xFF, 0x00, 0x7F, 0x00, 0x05⟩ = some ⟨0xFF, 0xFF, 0xFF, 0xFF, 0x00, 0x7F, 0x00, 0x06⟩ := by
  decide
theorem test_ctrinc_above_127 : ctrinc ⟨0xA0, 0xA1, 0xA2, 0xA3, 0x00, 0x00, 0x00, 0x80⟩ = none := by decide

/-! ### The block steps: step 1 of V20 to V29 -/

/-- What a block step of the scenario reads: key `00 .. 07`. -/
def scenarioIn (msg cv ctrr : Block) : BlockIn := ⟨.single, [0, 1, 2, 3, 4, 5, 6, 7], msg, cv, ctrr⟩

theorem test_block_ecb_enc : ecbEncBlock standIn (scenarioIn ⟨0x41, 0x41, 0x00, 0x00, 0x00, 0x00, 0x00, 0x00⟩ ⟨0x00, 0x00, 0x00, 0x00, 0x00, 0x00, 0x00, 0x00⟩
    ⟨0xA0, 0xA1, 0xA2, 0xA3, 0x00, 0x00, 0x00, 0x01⟩) =
    .ok ⟨⟨0x42, 0x02, 0x03, 0x04, 0x05, 0x06, 0x07, 0x49⟩, ⟨0x00, 0x00, 0x00, 0x00, 0x00, 0x00, 0x00, 0x00⟩,
      ⟨0xA0, 0xA1, 0xA2, 0xA3, 0x00, 0x00, 0x00, 0x01⟩⟩ := by decide
theorem test_block_ecb_dec : ecbDecBlock standIn (scenarioIn ⟨0x42, 0x02, 0x03, 0x04, 0x05, 0x06, 0x07, 0x49⟩ ⟨0x00, 0x00, 0x00, 0x00, 0x00, 0x00, 0x00, 0x00⟩
    ⟨0xA0, 0xA1, 0xA2, 0xA3, 0x00, 0x00, 0x00, 0x01⟩) =
    .ok ⟨⟨0x41, 0x41, 0x00, 0x00, 0x00, 0x00, 0x00, 0x00⟩, ⟨0x00, 0x00, 0x00, 0x00, 0x00, 0x00, 0x00, 0x00⟩,
      ⟨0xA0, 0xA1, 0xA2, 0xA3, 0x00, 0x00, 0x00, 0x01⟩⟩ := by decide
theorem test_block_cbc_enc : cbcEncBlock standIn (scenarioIn ⟨0x41, 0x41, 0x00, 0x00, 0x00, 0x00, 0x00, 0x00⟩ ⟨0x42, 0x43, 0x44, 0x45, 0x46, 0x47, 0x48, 0x49⟩
    ⟨0xA0, 0xA1, 0xA2, 0xA3, 0x00, 0x00, 0x00, 0x01⟩) =
    .ok ⟨⟨0x03, 0x46, 0x48, 0x4A, 0x4C, 0x4E, 0x50, 0x0B⟩, ⟨0x03, 0x46, 0x48, 0x4A, 0x4C, 0x4E, 0x50, 0x0B⟩,
      ⟨0xA0, 0xA1, 0xA2, 0xA3, 0x00, 0x00, 0x00, 0x01⟩⟩ := by decide
theorem test_block_cbc_dec : cbcDecBlock standIn (scenarioIn ⟨0x03, 0x46, 0x48, 0x4A, 0x4C, 0x4E, 0x50, 0x0B⟩ ⟨0x42, 0x43, 0x44, 0x45, 0x46, 0x47, 0x48, 0x49⟩
    ⟨0xA0, 0xA1, 0xA2, 0xA3, 0x00, 0x00, 0x00, 0x01⟩) =
    .ok ⟨⟨0x41, 0x41, 0x00, 0x00, 0x00, 0x00, 0x00, 0x00⟩, ⟨0x03, 0x46, 0x48, 0x4A, 0x4C, 0x4E, 0x50, 0x0B⟩,
      ⟨0xA0, 0xA1, 0xA2, 0xA3, 0x00, 0x00, 0x00, 0x01⟩⟩ := by decide
theorem test_block_cfb_enc : cfbEncBlock standIn (scenarioIn ⟨0x41, 0x41, 0x00, 0x00, 0x00, 0x00, 0x00, 0x00⟩ ⟨0x40, 0x43, 0x42, 0x45, 0x44, 0x47, 0x46, 0x49⟩
    ⟨0xA0, 0xA1, 0xA2, 0xA3, 0x00, 0x00, 0x00, 0x01⟩) =
    .ok ⟨⟨0x05, 0x05, 0x48, 0x48, 0x4C, 0x4C, 0x50, 0x48⟩, ⟨0x05, 0x05, 0x48, 0x48, 0x4C, 0x4C, 0x50, 0x48⟩,
      ⟨0xA0, 0xA1, 0xA2, 0xA3, 0x00, 0x00, 0x00, 0x01⟩⟩ := by decide
theorem test_block_cfb_dec : cfbDecBlock standIn (scenarioIn ⟨0x05, 0x05, 0x48, 0x48, 0x4C, 0x4C, 0x50, 0x48⟩ ⟨0x40, 0x43, 0x42, 0x45, 0x44, 0x47, 0x46, 0x49⟩
    ⟨0xA0, 0xA1, 0xA2, 0xA3, 0x00, 0x00, 0x00, 0x01⟩) =
    .ok ⟨⟨0x41, 0x41, 0x00, 0x00, 0x00, 0x00, 0x00, 0x00⟩, ⟨0x05, 0x05, 0x48, 0x48, 0x4C, 0x4C, 0x50, 0x48⟩,
      ⟨0xA0, 0xA1, 0xA2, 0xA3, 0x00, 0x00, 0x00, 0x01⟩⟩ := by decide
theorem test_block_ofb_enc : ofbBlock standIn (scenarioIn ⟨0x41, 0x41, 0x00, 0x00, 0x00, 0x00, 0x00, 0x00⟩ ⟨0x01, 0x02, 0x03, 0x04, 0x05, 0x06, 0x07, 0x08⟩
    ⟨0xA0, 0xA1, 0xA2, 0xA3, 0x00, 0x00, 0x00, 0x01⟩) =
    .ok ⟨⟨0x42, 0x44, 0x07, 0x09, 0x0B, 0x0D, 0x0F, 0x09⟩, ⟨0x03, 0x05, 0x07, 0x09, 0x0B, 0x0D, 0x0F, 0x09⟩,
      ⟨0xA0, 0xA1, 0xA2, 0xA3, 0x00, 0x00, 0x00, 0x01⟩⟩ := by decide
theorem test_block_ofb_dec : ofbBlock standIn (scenarioIn ⟨0x42, 0x44, 0x07, 0x09, 0x0B, 0x0D, 0x0F, 0x09⟩ ⟨0x01, 0x02, 0x03, 0x04, 0x05, 0x06, 0x07, 0x08⟩
    ⟨0xA0, 0xA1, 0xA2, 0xA3, 0x00, 0x00, 0x00, 0x01⟩) =
    .ok ⟨⟨0x41, 0x41, 0x00, 0x00, 0x00, 0x00, 0x00, 0x00⟩, ⟨0x03, 0x05, 0x07, 0x09, 0x0B, 0x0D, 0x0F, 0x09⟩,
      ⟨0xA0, 0xA1, 0xA2, 0xA3, 0x00, 0x00, 0x00, 0x01⟩⟩ := by decide
theorem test_block_ctr_enc : ctrBlock standIn (scenarioIn ⟨0x41, 0x41, 0x00, 0x00, 0x00, 0x00, 0x00, 0x00⟩ ⟨0x00, 0x00, 0x00, 0x00, 0x00, 0x00, 0x00, 0x00⟩
    ⟨0xA0, 0xA1, 0xA2, 0xA3, 0x00, 0x00, 0x00, 0x01⟩) =
    .ok ⟨⟨0xE3, 0xE5, 0xA6, 0x04, 0x05, 0x06, 0x08, 0xA8⟩, ⟨0x00, 0x00, 0x00, 0x00, 0x00, 0x00, 0x00, 0x00⟩,
      ⟨0xA0, 0xA1, 0xA2, 0xA3, 0x00, 0x00, 0x00, 0x02⟩⟩ := by decide
theorem test_block_ctr_dec : ctrBlock standIn (scenarioIn ⟨0xE3, 0xE5, 0xA6, 0x04, 0x05, 0x06, 0x08, 0xA8⟩ ⟨0x00, 0x00, 0x00, 0x00, 0x00, 0x00, 0x00, 0x00⟩
    ⟨0xA0, 0xA1, 0xA2, 0xA3, 0x00, 0x00, 0x00, 0x01⟩) =
    .ok ⟨⟨0x41, 0x41, 0x00, 0x00, 0x00, 0x00, 0x00, 0x00⟩, ⟨0x00, 0x00, 0x00, 0x00, 0x00, 0x00, 0x00, 0x00⟩,
      ⟨0xA0, 0xA1, 0xA2, 0xA3, 0x00, 0x00, 0x00, 0x02⟩⟩ := by decide
/-- Program P4: the request of CBC step 1 begins with 03 and fails. -/
theorem test_block_fails : cbcEncBlock (failing 0x03) (scenarioIn ⟨0x41, 0x41, 0x00, 0x00, 0x00, 0x00, 0x00, 0x00⟩
    ⟨0x42, 0x43, 0x44, 0x45, 0x46, 0x47, 0x48, 0x49⟩ ⟨0xA0, 0xA1, 0xA2, 0xA3, 0x00, 0x00, 0x00, 0x01⟩) =
    .error (.raises .cipherPrimitiveError) := by decide

/-! ### START and the machine's steps -/

/-- The start state of section 4.1. -/
def scenario : State :=
  { State.reset with
    rawMsg := fortyOnes
    rawKey := [0, 1, 2, 3, 4, 5, 6, 7]
    rawIv := [0, 0, 0, 0, 0, 0, 0, 0]
    rawNonce := [0xA0, 0xA1, 0xA2, 0xA3] }

/-- The scenario after START of a command. -/
def started (c : Command) : State := start c scenario

/-- A run of an empty message after START. -/
def startedEmpty (c : Command) : State := start c State.reset

/-- The status and the selectors a step leaves, to compare. -/
def selectors (o : Host.Outcome State Fault Refusal) : Option (St × Mode × Dir × Alg) :=
  match o with
  | .next t => some (t.st, t.mode, t.dir, t.alg)
  | .fault _ => none
  | .refused _ => none

/-- The operands a step leaves, to compare. -/
def operands (o : Host.Outcome State Fault Refusal) : Option (List Byte × Block × Block × Nat) :=
  match o with
  | .next t => some (t.keyn, t.cv, t.ctrr, t.n)
  | .fault _ => none
  | .refused _ => none

theorem test_start_ecbEnc : selectors (step (scenario.withFetchWord 8 0b10000)) = some (.busy, .ecb, .encrypt, .triple) := by decide
theorem test_start_cbcEnc : selectors (step (scenario.withFetchWord 8 0b10001)) = some (.busy, .cbc, .encrypt, .triple) := by decide
theorem test_start_cfbEnc : selectors (step (scenario.withFetchWord 8 0b10010)) = some (.busy, .cfb, .encrypt, .triple) := by decide
theorem test_start_ofbEnc : selectors (step (scenario.withFetchWord 8 0b10011)) = some (.busy, .ofb, .encrypt, .triple) := by decide
theorem test_start_ctrEnc : selectors (step (scenario.withFetchWord 8 0b10100)) = some (.busy, .ctr, .encrypt, .triple) := by decide
theorem test_start_fb5Enc : selectors (step (scenario.withFetchWord 8 0b10101)) = some (.busy, .ecb, .encrypt, .triple) := by decide
theorem test_start_fb6Enc : selectors (step (scenario.withFetchWord 8 0b10110)) = some (.busy, .ecb, .encrypt, .triple) := by decide
theorem test_start_fb7Enc : selectors (step (scenario.withFetchWord 8 0b10111)) = some (.busy, .ecb, .encrypt, .triple) := by decide
theorem test_start_ecbDec : selectors (step (scenario.withFetchWord 8 0b11000)) = some (.busy, .ecb, .decrypt, .triple) := by decide
theorem test_start_cbcDec : selectors (step (scenario.withFetchWord 8 0b11001)) = some (.busy, .cbc, .decrypt, .triple) := by decide
theorem test_start_cfbDec : selectors (step (scenario.withFetchWord 8 0b11010)) = some (.busy, .cfb, .decrypt, .triple) := by decide
theorem test_start_ofbDec : selectors (step (scenario.withFetchWord 8 0b11011)) = some (.busy, .ofb, .decrypt, .triple) := by decide
theorem test_start_ctrDec : selectors (step (scenario.withFetchWord 8 0b11100)) = some (.busy, .ctr, .decrypt, .triple) := by decide
theorem test_start_fb5Dec : selectors (step (scenario.withFetchWord 8 0b11101)) = some (.busy, .ecb, .decrypt, .triple) := by decide
theorem test_start_fb6Dec : selectors (step (scenario.withFetchWord 8 0b11110)) = some (.busy, .ecb, .decrypt, .triple) := by decide
theorem test_start_fb7Dec : selectors (step (scenario.withFetchWord 8 0b11111)) = some (.busy, .ecb, .decrypt, .triple) := by decide
/-- The operands of section 4.2. -/
theorem test_start_operands : operands (exec (.ctrEnc .single) { State.reset with
      rawMsg := List.replicate 17 0, rawKey := [0x01, 0x02, 0x03, 0x04, 0x05, 0x06, 0x07, 0x08, 0x09, 0x0A], rawIv := [0xAA, 0xBB, 0xCC],
      rawNonce := [1, 2, 3, 4, 5, 6] }) =
    some ([0x01, 0x02, 0x03, 0x04, 0x05, 0x06, 0x07, 0x08], ⟨0xAA, 0xBB, 0xCC, 0xAA, 0xBB, 0xCC, 0xAA, 0xBB⟩, ⟨0x01, 0x02, 0x03, 0x04, 0x00, 0x00, 0x00, 0x00⟩, 3) := by
  decide
/-- V19, V16: a triple-length key is repeated cyclically, an empty nonce is zero. -/
theorem test_start_triple_key : operands (exec (.ecbDec .triple) { State.reset with
      rawKey := [0x01, 0x02, 0x03, 0x04, 0x05, 0x06, 0x07, 0x08, 0x09, 0x0A] }) =
    some ([0x01, 0x02, 0x03, 0x04, 0x05, 0x06, 0x07, 0x08, 0x09, 0x0A, 0x01, 0x02, 0x03, 0x04, 0x05, 0x06, 0x07, 0x08, 0x09, 0x0A, 0x01, 0x02, 0x03, 0x04],
      Block.zero, Block.zero, 0) := by decide
/-- R38, R283: `Start` right after reset selects ECB, encrypt, single. -/
theorem test_start_after_reset : selectors (step { State.reset with agenda := [.host .start] }) =
    some (.busy, .ecb, .encrypt, .single) := by decide
/-- V35: an empty message is done after FINISH. -/
theorem test_finish_empty : selectors (step (startedEmpty ⟨.cfb, .decrypt, .triple⟩)) = some (.done, .cfb, .decrypt, .triple) := by
  decide
/-- P5, line 5: `Start` in a run is ignored. -/
theorem test_start_ignored : selectors (step { started ⟨.cbc, .encrypt, .single⟩ with agenda := [.host .start] }) =
    some (.busy, .cbc, .encrypt, .single) := by decide
/-- R280: `Reset` in a run. -/
theorem test_reset : (selectors (step { started ⟨.cbc, .encrypt, .single⟩ with agenda := [.host .reset] })).map Prod.fst =
    some .idle := by decide

/-! ### A whole run as one function -/

/-- The scenario under a command word. -/
def runScenario (m : List Byte) (c : BitVec 5) : Except BlockStop (List Byte) :=
  run standIn m [0, 1, 2, 3, 4, 5, 6, 7] [0, 0, 0, 0, 0, 0, 0, 0] [0xA0, 0xA1, 0xA2, 0xA3] (fieldsOf c)

/-- P3: a fallback code runs ECB. -/
theorem test_run_fallback : runScenario fortyOnes 0x07 =
    .ok [0x42, 0x43, 0x44, 0x45, 0x46, 0x47, 0x48, 0x49, 0x42, 0x02, 0x03, 0x04, 0x05, 0x06, 0x07, 0x49] := by decide

/-! ### Witnesses: for each obligation with hypotheses, a concrete state and operands that meet them together -/

/-- One block of `41`. -/
def ones : Block := ⟨0x41, 0x41, 0x41, 0x41, 0x41, 0x41, 0x41, 0x41⟩

/-- The last block of the scenario. -/
def tail : Block := ⟨0x41, 0x41, 0, 0, 0, 0, 0, 0⟩

/-- The scenario in its last block step: `BI = 1`, `N = 2`. -/
def lastStep (c : Command) : State := { started c with outb := [(0, ones)], bi := 1 }

/-- The scenario at FINISH: `BI = N = 2`. -/
def atFinish (c : Command) : State := { started c with outb := [(0, ones), (1, tail)], bi := 2 }

/-- Nothing is too long for an empty raw buffer. -/
theorem reset_capacities (x : RawBuf) : fits (capacity Config.platform x) (State.reset.raw x).length = true := by
  cases x <;> exact fits_zero _

/-- Right after START of an empty message the invariant holds, whatever the capacities are. -/
theorem startedEmpty_inv (c : Command) : (startedEmpty c).Inv := State.Inv.of_start c reset_capacities

/-- The scenario's buffers, on a platform whose capacities hold them. -/
theorem scenario_capacities (hm : fits Config.platform.maxMsgBytes 10 = true)
    (hr : fits Config.platform.maxRawBytes 8 = true) (x : RawBuf) :
    fits (capacity Config.platform x) (scenario.raw x).length = true := by
  cases x
  · exact hm
  · exact hr
  · exact hr
  · show fits Config.platform.maxRawBytes 4 = true
    generalize Config.platform.maxRawBytes = cap at *
    cases cap with
    | none => rfl
    | some c =>
      have : 8 ≤ c := by simpa [fits] using hr
      simpa [fits] using (by omega : 4 ≤ c)

theorem witness_EncodeOfDecodeIsIdentity :
    decode [0b00001001, 0xFF] = .ok (.cbcDec .single, [0xFF]) ∧ decode [0b00011111] = .ok (.fb7Dec .triple, []) ∧
    decode [0b00100000] = .error .notFiveBits ∧ (32 : Nat) ≤ (0b00100000 : Byte).toNat := by decide

/-- A block waiting for `Start` outside a run. -/
def waiting (c : BitVec 5) : State := { scenario with cmd := c, agenda := [.host .start, .engine] }

theorem witness_StartLatchesTheFields :
    (waiting 0b11011).st ≠ .busy ∧ (waiting 0b11011).agenda = .host .start :: [.engine] ∧
    engineMove (startedEmpty ⟨.cbc, .encrypt, .single⟩) =
      .next { startedEmpty ⟨.cbc, .encrypt, .single⟩ with out := [], status := 0b0010#4 } ∧
    (startedEmpty ⟨.cbc, .encrypt, .single⟩).st = .busy ∧ (startedEmpty ⟨.cbc, .encrypt, .single⟩).agenda = [] ∧
    (∃ t, step (startedEmpty ⟨.cbc, .encrypt, .single⟩) = .next t) :=
  ⟨by decide, rfl, rfl, by decide, rfl, _, rfl⟩

theorem witness_FallbackCodesRunEcb :
    5 ≤ ((0b01101#5).extractLsb' 0 3).toNat ∧ 5 ≤ ((0b10111#5).extractLsb' 0 3).toNat ∧ (waiting 0).st ≠ .busy ∧
    (waiting 0).agenda = .host .start :: [.engine] := by decide

theorem witness_SelectorStringsIssueCommands : CallSelectors.cmd ⟨"XYZ", "decrypt", "triple"⟩ = some 0b11000#5 := by decide

theorem witness_StepRunsTheSelectedCommand :
    decode [(waiting 0b10100).cmd.setWidth 8] = .ok (.ctrEnc .triple, []) ∧ (waiting 0b10100).st ≠ .busy ∧
    (waiting 0b10100).agenda = .host .start :: [.engine] ∧
    (started ⟨.ctr, .encrypt, .triple⟩).st = .busy ∧ (started ⟨.ctr, .encrypt, .triple⟩).agenda = [] ∧
    ({ started ⟨.ctr, .encrypt, .triple⟩ with agenda := [.engine] } : State).agenda = .engine :: [] := by decide

theorem witness_PresentedCommandRunsNext :
    ∃ u : State, u = (started ⟨.ecb, .encrypt, .single⟩).withFetchWord 8 (encode (.cfbDec .triple)).toNat := ⟨_, rfl⟩

theorem witness_EveryCommandStartsARun : scenario.st ≠ .busy := by decide

theorem witness_StartBuildsAFreshEngine :
    (waiting 0).agenda = .host .start :: [.engine] ∧ (waiting 0).st ≠ .busy ∧
    ({ started ⟨.ofb, .decrypt, .single⟩ with agenda := [.host .start] } : State).agenda = .host .start :: [] ∧
    ({ started ⟨.ofb, .decrypt, .single⟩ with agenda := [.host .start] } : State).st = .busy := by decide

/-- The hypotheses of a block step, at the first and at the last block of a run. -/
def AtBlock (s : State) (mode : Mode) (dir : Dir) (m : Block) : Prop :=
  s.st = .busy ∧ s.mode = mode ∧ s.dir = dir ∧ s.bi < s.n ∧ s.msg[s.bi]? = some m

theorem witness_EcbEncBlockStep : AtBlock (started ⟨.ecb, .encrypt, .single⟩) .ecb .encrypt ones ∧
    AtBlock (lastStep ⟨.ecb, .encrypt, .triple⟩) .ecb .encrypt tail := by unfold AtBlock; decide
theorem witness_EcbDecBlockStep : AtBlock (started ⟨.ecb, .decrypt, .single⟩) .ecb .decrypt ones ∧
    AtBlock (lastStep ⟨.ecb, .decrypt, .triple⟩) .ecb .decrypt tail := by unfold AtBlock; decide
theorem witness_CbcEncBlockStep : AtBlock (started ⟨.cbc, .encrypt, .single⟩) .cbc .encrypt ones ∧
    AtBlock (lastStep ⟨.cbc, .encrypt, .triple⟩) .cbc .encrypt tail := by unfold AtBlock; decide
theorem witness_CbcDecBlockStep : AtBlock (started ⟨.cbc, .decrypt, .single⟩) .cbc .decrypt ones ∧
    AtBlock (lastStep ⟨.cbc, .decrypt, .triple⟩) .cbc .decrypt tail := by unfold AtBlock; decide
theorem witness_CfbEncBlockStep : AtBlock (started ⟨.cfb, .encrypt, .single⟩) .cfb .encrypt ones ∧
    AtBlock (lastStep ⟨.cfb, .encrypt, .triple⟩) .cfb .encrypt tail := by unfold AtBlock; decide
theorem witness_CfbDecBlockStep : AtBlock (started ⟨.cfb, .decrypt, .single⟩) .cfb .decrypt ones ∧
    AtBlock (lastStep ⟨.cfb, .decrypt, .triple⟩) .cfb .decrypt tail := by unfold AtBlock; decide
theorem witness_OfbBlockStep : AtBlock (started ⟨.ofb, .encrypt, .single⟩) .ofb .encrypt ones ∧
    AtBlock (lastStep ⟨.ofb, .decrypt, .triple⟩) .ofb .decrypt tail := by unfold AtBlock; decide
/-- Both clauses: a counter half at the largest value in range, and one byte above it. -/
theorem witness_CtrBlockStep :
    AtBlock { started ⟨.ctr, .encrypt, .single⟩ with ctrr := ⟨0xFF, 0, 0, 0, 127, 127, 127, 127⟩ } .ctr .encrypt ones ∧
    counterInRange ⟨0xFF, 0, 0, 0, 127, 127, 127, 127⟩ = true ∧
    AtBlock { lastStep ⟨.ctr, .decrypt, .triple⟩ with ctrr := ⟨0, 0, 0, 0, 0, 128, 0, 0⟩ } .ctr .decrypt tail ∧
    counterInRange ⟨0, 0, 0, 0, 0, 128, 0, 0⟩ = false := by unfold AtBlock; decide

/-- A block step of ECB gives a next state, whatever the primitive answers; FINISH ends a run. -/
theorem witness_RunStepFrame :
    (∃ t, exec (.ecbEnc .single) (started ⟨.ecb, .encrypt, .single⟩) = .next t) ∧
    (∃ t, exec (.ecbEnc .single) (atFinish ⟨.ecb, .encrypt, .single⟩) = .next t ∧ t.st ≠ .busy) := by
  refine ⟨?_, _, rfl, by decide⟩
  have hm : (started ⟨.ecb, .encrypt, .single⟩).msg[(started ⟨.ecb, .encrypt, .single⟩).bi]? = some ones := by decide
  have hs : exec (.ecbEnc .single) (started ⟨.ecb, .encrypt, .single⟩) =
      blockStep (ecbEncBlock Config.platform) (started ⟨.ecb, .encrypt, .single⟩) := rfl
  rw [hs]
  simp only [blockStep, hm, ecbEncBlock, prim]
  cases Config.platform.E (started ⟨.ecb, .encrypt, .single⟩).alg (started ⟨.ecb, .encrypt, .single⟩).keyn ones <;>
    exact ⟨_, rfl⟩

theorem witness_OtherCommandIsRefused :
    (started ⟨.cbc, .encrypt, .single⟩).st = .busy ∧
    (started ⟨.cbc, .encrypt, .single⟩).mode ≠ (Instr.ofbEnc .single).command.mode ∧
    (started ⟨.cbc, .encrypt, .single⟩).dir ≠ (Instr.cbcDec .single).command.dir ∧
    (started ⟨.cbc, .encrypt, .single⟩).mode ≠ .ofb ∧ (started ⟨.cbc, .encrypt, .single⟩).mode ≠ .ctr := by decide

theorem witness_BlockBufferReadsBack : (1 : Nat) ≠ 0 ∧ Memory.wf [(0, ones), (3, tail)] := by simp

/-- The empty run on every platform, and the scenario's two blocks on a platform that holds them. -/
theorem witness_FinishDeliversTheJoin :
    ((startedEmpty ⟨.ofb, .encrypt, .single⟩).Inv ∧ (startedEmpty ⟨.ofb, .encrypt, .single⟩).st = .busy ∧
      (startedEmpty ⟨.ofb, .encrypt, .single⟩).bi = (startedEmpty ⟨.ofb, .encrypt, .single⟩).n ∧
      inProgress .ofb .decrypt (startedEmpty ⟨.ofb, .encrypt, .single⟩) = true) ∧
    (fits Config.platform.maxMsgBytes 10 = true → fits Config.platform.maxRawBytes 8 = true →
      (atFinish ⟨.cbc, .encrypt, .single⟩).Inv ∧
      (atFinish ⟨.cbc, .encrypt, .single⟩).bi = (atFinish ⟨.cbc, .encrypt, .single⟩).n ∧
      inProgress .cbc .encrypt (atFinish ⟨.cbc, .encrypt, .single⟩) = true) := by
  refine ⟨⟨startedEmpty_inv _, by decide, by decide, by decide⟩, fun hm hr => ⟨?_, by decide, by decide⟩⟩
  have h := State.Inv.of_start ⟨.cbc, .encrypt, .single⟩ (scenario_capacities hm hr)
  have h1 := State.Inv.of_commitBlock h rfl (by decide) ⟨ones, Block.zero, ⟨0xA0, 0xA1, 0xA2, 0xA3, 0, 0, 0, 0⟩⟩ rfl
  exact State.Inv.of_commitBlock h1 rfl (by decide) ⟨tail, Block.zero, ⟨0xA0, 0xA1, 0xA2, 0xA3, 0, 0, 0, 0⟩⟩ rfl

/-- Both error codes. -/
theorem witness_ErrorEntryIsPrecise :
    AtBlock (started ⟨.cbc, .encrypt, .single⟩) .cbc .encrypt ones ∧
    cbcEncBlock (failing 0x41) (scenarioIn ones Block.zero ⟨0xA0, 0xA1, 0xA2, 0xA3, 0, 0, 0, 0⟩) =
      .error (.raises .cipherPrimitiveError) ∧
    (started ⟨.cbc, .encrypt, .single⟩).alg = .single ∧
    (fun _ => .error (.raises (.lengthMismatch 8 7)) : BlockIn → Except BlockStop BlockOut)
      (scenarioIn ones Block.zero Block.zero) = .error (.raises (.lengthMismatch 8 7)) := by
  refine ⟨by unfold AtBlock; decide, by decide, by decide, rfl⟩

/-- Two platforms that agree in one direction and differ in the other, and in everything else. -/
theorem witness_EachCommandUsesOneDirection :
    (standIn.E = ({ standIn with D := fun _ _ _ => none, maxRawBytes := some 8, hostMap := fun _ => 1 } : Platform).E ∧
      standIn.D ≠ ({ standIn with D := fun _ _ _ => none, maxRawBytes := some 8, hostMap := fun _ => 1 } : Platform).D) ∧
    (standIn.D = ({ standIn with E := fun _ _ _ => none, maxMsgBytes := some 0, hostMap := fun _ => 1 } : Platform).D ∧
      standIn.E ≠ ({ standIn with E := fun _ _ _ => none, maxMsgBytes := some 0, hostMap := fun _ => 1 } : Platform).E) := by
  refine ⟨⟨rfl, fun h => ?_⟩, rfl, fun h => ?_⟩
  · have := congrFun (congrFun (congrFun h .single) []) Block.zero; cases this
  · have := congrFun (congrFun (congrFun h .single) []) Block.zero; cases this

/-- A write within every capacity, and, where the capacity is bounded, one beyond it. -/
theorem witness_HostWritesTakeEffect :
    ({ scenario with agenda := [.host (.writeBuf .rawKey [])] } : State).agenda = .host (.writeBuf .rawKey []) :: [] ∧
    fits (capacity Config.platform .rawKey) ([] : List Byte).length = true ∧
    (∀ c, Config.platform.maxRawBytes = some c →
      fits (capacity Config.platform .rawKey) (List.replicate (c + 1) (0 : Byte)).length = false) ∧
    ({ scenario with agenda := [.host (.writeCmd 9)] } : State).agenda = .host (.writeCmd 9) :: [] := by
  refine ⟨rfl, fits_zero _, fun c h => ?_, rfl⟩
  simp [capacity, h, fits]

/-- After a finished run and in a run. -/
theorem witness_HostReadsHaveNoSideEffect :
    ({ scenario with agenda := [.host .readStatus] } : State).agenda = .host .readStatus :: [] ∧
    (({ startedEmpty ⟨.ecb, .encrypt, .single⟩ with agenda := [.host .readOut] } : State).Inv ∧
      ({ startedEmpty ⟨.ecb, .encrypt, .single⟩ with agenda := [.host .readOut] } : State).st ≠ .done) ∧
    (({ startedEmpty ⟨.ecb, .encrypt, .single⟩ with status := 0b0010#4, agenda := [.host .readOut] } : State).Inv ∧
      ({ startedEmpty ⟨.ecb, .encrypt, .single⟩ with status := 0b0010#4, agenda := [.host .readOut] } : State).st =
        .done) := by
  have h := startedEmpty_inv ⟨.ecb, .encrypt, .single⟩
  have hb : (startedEmpty ⟨.ecb, .encrypt, .single⟩).st ≠ .idle := by decide
  refine ⟨rfl, ⟨h.of_agenda _, by decide⟩, ⟨?_, by decide⟩⟩
  exact ⟨fun _ => h.keyLength hb, fun _ => h.blockCount hb, fun _ => h.index hb, fun _ => h.written hb,
    fun _ => h.counter hb, by decide, by decide, rfl, fun _ => rfl,
    fun x => by have := h.capacities x; cases x <;> exact this, fun _ => h.blockCapacity hb⟩

theorem witness_ResetFromAnyState :
    ({ lastStep ⟨.cbc, .encrypt, .single⟩ with agenda := [.host .reset] } : State).agenda = .host .reset :: [] := rfl

/-- A step of each kind the table lists. -/
theorem witness_StatusMovesOnlyAsListed :
    (∃ t, step (waiting 3) = .next t) ∧ (∃ t, step (started ⟨.ecb, .encrypt, .single⟩) = .next t) ∧
    (∃ t, step (atFinish ⟨.ecb, .encrypt, .single⟩) = .next t) ∧
    (∃ t, step { atFinish ⟨.ecb, .encrypt, .single⟩ with agenda := [.host .reset] } = .next t) ∧
    (∃ t, step { atFinish ⟨.ecb, .encrypt, .single⟩ with agenda := [.host .start] } = .next t) :=
  ⟨⟨_, rfl⟩, witness_RunStepFrame.1, ⟨_, rfl⟩, ⟨_, rfl⟩, ⟨_, rfl⟩⟩

theorem witness_EveryStepKeepsInv :
    (startedEmpty ⟨.ctr, .decrypt, .triple⟩).Inv ∧ ∃ t, step (startedEmpty ⟨.ctr, .decrypt, .triple⟩) = .next t :=
  ⟨startedEmpty_inv _, _, rfl⟩

/-- In each mode, right after START. -/
theorem witness_EveryStepKeepsChaining :
    (startedEmpty ⟨.cbc, .encrypt, .single⟩).Inv ∧ (startedEmpty ⟨.cbc, .encrypt, .single⟩).Chained ∧
    (∃ t, step (startedEmpty ⟨.cbc, .encrypt, .single⟩) = .next t) ∧
    (startedEmpty ⟨.ofb, .encrypt, .single⟩).Chained ∧ (startedEmpty ⟨.ctr, .encrypt, .single⟩).Chained := by
  refine ⟨startedEmpty_inv _, ?_, ⟨_, rfl⟩, ?_, ?_⟩ <;>
    exact ⟨fun _ _ => rfl, fun _ _ => rfl, fun _ _ => rfl, fun _ _ => rfl, fun _ _ => rfl⟩

theorem witness_NoStepStops : (startedEmpty ⟨.ecb, .decrypt, .single⟩).Inv := startedEmpty_inv _

theorem witness_NonceHalfNeverModified :
    (∃ t, step (waiting 4) = .next t) ∧ (waiting 4).agenda.head? ≠ some (.host .reset) ∧
    (∃ t, step (atFinish ⟨.ctr, .encrypt, .single⟩) = .next t) ∧
    (atFinish ⟨.ctr, .encrypt, .single⟩).agenda.head? ≠ some (.host .reset) :=
  ⟨⟨_, rfl⟩, by decide, ⟨_, rfl⟩, by decide⟩

/-- Two states that differ only in engine-private elements, and a step from them. -/
theorem witness_PrivateElementsUnseen :
    SameToHost (waiting 1) { waiting 1 with keyn := [], cv := ones, outb := [(7, tail)], mode := .ctr } ∧
    (∃ u, step (waiting 1) = .next u) :=
  ⟨⟨rfl, rfl, rfl, rfl, rfl, rfl, rfl, rfl, rfl, fun h => absurd h (by decide)⟩, _, rfl⟩

/-- A host operation in a run, and two states of one run with different raw buffers. -/
theorem witness_HostCannotDisturbARun :
    (started ⟨.cbc, .encrypt, .single⟩).st = .busy ∧ (HostOp.writeBuf .rawKey [1] ≠ HostOp.reset) ∧
    SameRun (atFinish ⟨.cbc, .encrypt, .single⟩) { atFinish ⟨.cbc, .encrypt, .single⟩ with rawKey := [1], cmd := 7 } ∧
    (∃ u, engineMove (atFinish ⟨.cbc, .encrypt, .single⟩) = .next u) :=
  ⟨by decide, by decide, ⟨rfl, rfl, rfl, rfl, rfl, rfl, rfl, rfl, rfl, rfl, rfl, rfl, rfl⟩, _, rfl⟩

theorem witness_InterleavingDoesNotMatter :
    (atFinish ⟨.cfb, .encrypt, .single⟩).st = .busy ∧
    (∀ m ∈ [Move.host (.writeCmd 3), .engine, .host .readOut], m ≠ .host .reset ∧ m ≠ .host .start) ∧
    (∃ t, Sys2Proof.core.run 3 { atFinish ⟨.cfb, .encrypt, .single⟩ with
      agenda := [.host (.writeCmd 3), .engine, .host .readOut] } = .next t) :=
  ⟨by decide, by decide, _, rfl⟩

theorem witness_RunEndsWithinItsBlocks :
    (startedEmpty ⟨.cbc, .decrypt, .single⟩).Inv ∧ (startedEmpty ⟨.cbc, .decrypt, .single⟩).st = .busy ∧
    (startedEmpty ⟨.cbc, .decrypt, .single⟩).agenda = [] := ⟨startedEmpty_inv _, by decide, rfl⟩

theorem witness_StartedRunGivesWhatRunSays :
    ({ scenario with agenda := [.host .start] } : State).st ≠ .busy ∧
    ({ scenario with agenda := [.host .start] } : State).agenda = [.host .start] := by decide

theorem witness_EmptyMessageAlwaysSucceeds :
    ({ scenario with rawMsg := [], cmd := 0x1F, agenda := [.host .start] } : State).st ≠ .busy ∧
    ({ scenario with rawMsg := [], cmd := 0x1F, agenda := [.host .start] } : State).agenda = [.host .start] ∧
    ({ scenario with rawMsg := [], cmd := 0x1F, agenda := [.host .start] } : State).rawMsg = [] := by decide

theorem witness_CounterIncrementAddsOne : counterInRange ⟨0xFF, 0xFF, 0xFF, 0xFF, 127, 127, 127, 127⟩ = true := by decide

theorem witness_SplitPadsTheLastChunk : 1 < ceil8 fortyOnes.length ∧ (7 : Nat) < 8 := by decide

theorem witness_JoinUndoesSplit : (fortyOnes ++ List.replicate 6 0).length % 8 = 0 ∧ 1 < [ones, tail].length := by decide

theorem witness_NormalizeIsCyclic : (23 : Nat) < 24 ∧ ([1, 2, 3] : List Byte) ≠ [] ∧
    4 ≤ ([1, 2, 3, 4, 5, 6] : List Byte).length := by decide

theorem witness_XorIsLaneWise : ones.bytes.length = tail.bytes.length ∧ ones.bytes[7]? = some 0x41 ∧
    tail.bytes[7]? = some 0 ∧ ones.bytes.length ≠ ([] : List Byte).length := by decide

/-! For the whole-run obligations: runs of the stand-in primitive that succeed. -/

/-- `41×24`, and the same with byte 8 changed (95_test_vectors.md, section 8). -/
def threeOnes : List Byte := List.replicate 24 0x41
def byteEightChanged : List Byte := List.replicate 8 0x41 ++ 0x40 :: List.replicate 15 0x41

/-- For ResultLength, EcbWholeRun, CbcWholeRun, CfbWholeRun, OfbWholeRun and CtrWholeRun: every mode, direction and algorithm
runs to its end, and a message has two equal blocks. -/
theorem witness_WholeRuns :
    (∀ mode dir alg, ∃ out, run standIn fortyOnes [1] [2] [3] ⟨mode, dir, alg⟩ = .ok out) ∧
    (split threeOnes)[0]? = (split threeOnes)[2]? ∧ 2 < ceil8 threeOnes.length := by
  refine ⟨?_, by decide, by decide⟩
  intro mode dir alg
  cases mode <;> cases dir <;> cases alg <;> exact ⟨_, rfl⟩

theorem witness_RoundTripGivesThePaddedMessage :
    standIn.Inverse ∧ ∀ mode alg, ∃ c, run standIn fortyOnes [1] [2] [3] ⟨mode, .encrypt, alg⟩ = .ok c :=
  ⟨standIn_inverse, fun mode alg => witness_WholeRuns.1 mode .encrypt alg⟩

theorem witness_StreamModesKeepDifferences :
    ceil8 threeOnes.length = ceil8 byteEightChanged.length ∧
    (∃ o, run standIn threeOnes [1] [2] [3] ⟨.ofb, .encrypt, .single⟩ = .ok o) ∧
    (∃ o, run standIn byteEightChanged [1] [2] [3] ⟨.ofb, .decrypt, .single⟩ = .ok o) ∧
    (∃ o, run standIn threeOnes [1] [2] [3] ⟨.ctr, .encrypt, .single⟩ = .ok o) ∧
    (∃ o, run standIn byteEightChanged [1] [2] [3] ⟨.ctr, .decrypt, .single⟩ = .ok o) :=
  ⟨by decide, ⟨_, rfl⟩, ⟨_, rfl⟩, ⟨_, rfl⟩, ⟨_, rfl⟩⟩

/-- `j = 1` in ECB, `j = 0`, and `j = 1` behind an equal block 0 in CBC and CFB; the messages differ elsewhere. -/
theorem witness_DecryptionIsLocal :
    (∃ o, run standIn threeOnes [1] [2] [3] ⟨.cbc, .decrypt, .single⟩ = .ok o) ∧
    (∃ o, run standIn byteEightChanged [1] [2] [3] ⟨.cbc, .decrypt, .single⟩ = .ok o) ∧
    (split threeOnes)[0]? = (split byteEightChanged)[0]? ∧ (split threeOnes)[1]? ≠ (split byteEightChanged)[1]? ∧
    (split threeOnes)[2]? = (split byteEightChanged)[2]? ∧
    (split threeOnes)[1]? = (split (threeOnes.take 16))[1]? ∧ (split threeOnes)[0]? = (split (threeOnes.take 16))[0]? ∧
    (∃ o, run standIn (threeOnes.take 16) [1] [2] [3] ⟨.cfb, .decrypt, .single⟩ = .ok o) :=
  ⟨⟨_, rfl⟩, ⟨_, rfl⟩, by decide, by decide, by decide, by decide, by decide, ⟨_, rfl⟩⟩

theorem witness_ChangedBlockSpreads :
    standIn.Injective ∧ (∃ o, run standIn threeOnes [1] [2] [3] ⟨.cfb, .encrypt, .single⟩ = .ok o) ∧
    (∃ o, run standIn byteEightChanged [1] [2] [3] ⟨.cfb, .encrypt, .single⟩ = .ok o) ∧
    (∃ o, run standIn threeOnes [1] [2] [3] ⟨.cbc, .encrypt, .single⟩ = .ok o) ∧
    (∃ o, run standIn byteEightChanged [1] [2] [3] ⟨.cbc, .encrypt, .single⟩ = .ok o) ∧
    (split threeOnes).length = (split byteEightChanged).length ∧
    (∀ j, (split threeOnes)[j]? ≠ (split byteEightChanged)[j]? ↔ j = 1) := by
  refine ⟨standIn_injective, ⟨_, rfl⟩, ⟨_, rfl⟩, ⟨_, rfl⟩, ⟨_, rfl⟩, by decide, ?_⟩
  intro j
  match j with
  | 0 => decide
  | 1 => decide
  | 2 => decide
  | j + 3 =>
    rw [List.getElem?_eq_none (show (split threeOnes).length ≤ j + 3 from Nat.le_add_left 3 j),
      List.getElem?_eq_none (show (split byteEightChanged).length ≤ j + 3 from Nat.le_add_left 3 j)]
    simp

end Sys2Proof.Tests
end

/-! ### Family `10_state.md`: what the state holds and what every step keeps of it -/

namespace Sys2Proof.Machine

open Sys2Proof

/-! #### `OUTB`: read after write -/

/-- A block reads back at the index it was written at, whatever the buffer. -/
@[simp] theorem Memory.read_write_same (m : BlockBuf) (i : Nat) (v : Block) :
    Memory.read (Memory.write m i v) i = some v := by
  induction m with
  | nil => simp [Memory.write, Memory.read]
  | cons q rest ih =>
    obtain ⟨k, b⟩ := q
    rcases Nat.lt_trichotomy i k with hlt | heq | hgt
    · simp [Memory.write, Memory.read, hlt]
    · simp [Memory.write, Memory.read, heq]
    · simp [Memory.write, Memory.read, Nat.lt_asymm hgt, Nat.ne_of_gt hgt, Nat.ne_of_lt hgt, ih]

/-- A write leaves every other index. -/
theorem Memory.read_write_ne (m : BlockBuf) {i j : Nat} (v : Block) (hj : j ≠ i) :
    Memory.read (Memory.write m i v) j = Memory.read m j := by
  induction m with
  | nil => simp [Memory.write, Memory.read, hj.symm]
  | cons q rest ih =>
    obtain ⟨k, b⟩ := q
    rcases Nat.lt_trichotomy i k with hlt | heq | hgt
    · simp [Memory.write, Memory.read, hlt, hj.symm]
    · simp [Memory.write, Memory.read, ← heq, hj.symm]
    · simp [Memory.write, Memory.read, Nat.lt_asymm hgt, Nat.ne_of_gt hgt, ih]

/-- Settles O21: the two reads by induction on the buffer; the canonical form is `Memory.write_keeps_wf`. -/
theorem blockBufferReadsBack : Obligations.BlockBufferReadsBack := fun m i v =>
  ⟨Memory.read_write_same m i v, fun _ hj => Memory.read_write_ne m v hj, Memory.write_keeps_wf m i v⟩

/-- FINISH gathers as many blocks as it asks for. -/
theorem Memory.gather_length {m : BlockBuf} {i k : Nat} {bs : List Block} (h : Memory.gather m i k = some bs) :
    bs.length = k := by
  induction k generalizing i bs with
  | zero => simp only [Memory.gather, Option.some.injEq] at h; simp [← h]
  | succ k ih =>
    simp only [Memory.gather] at h
    split at h
    next b rest _ hrest => cases h; simp [ih hrest]
    next => cases h

/-! #### Reset -/

@[simp] theorem reset_st : State.reset.st = .idle := rfl
@[simp] theorem reset_err : State.reset.err = .none := rfl

/-- Outside a run nothing is asked of the hidden elements, so it does not matter what reset leaves there. -/
theorem reset_inv : State.reset.Inv where
  keyLength h := absurd reset_st h
  blockCount h := absurd reset_st h
  index h := absurd reset_st h
  written h := absurd reset_st h
  counter h := absurd reset_st h
  errIff := by simp
  errCode := .inl reset_err
  outLength := rfl
  doneAll h := by simp at h
  capacities x := by cases x <;> exact fits_zero _
  blockCapacity h := absurd reset_st h

theorem reset_chained : State.reset.Chained where
  cipherBlock h := absurd reset_st h
  seed h := absurd reset_st h
  unusedCv h := absurd reset_st h
  counter h := absurd reset_st h
  unusedCounter h := absurd reset_st h

/-- Settles O33: ST is IDLE at reset, where both invariants speak of host-visible elements only. -/
theorem invariantsHoldAtReset : Obligations.InvariantsHoldAtReset := ⟨reset_inv, reset_chained⟩

/-- `Start` as the next move, outside a run (R211). -/
theorem step_start {s : State} {rest : List Move} (hb : s.st ≠ .busy) (ha : s.agenda = .host .start :: rest) :
    step s = .next (start (fieldsOf s.cmd) { s with agenda := rest, answer := .nothing }) := by
  unfold step nextMove
  rw [ha]
  exact startMove_notBusy { s with agenda := rest } hb

/-- FINISH as the next engine step (R216). -/
theorem engineMove_finish {s : State} {bs : List Block} (hb : s.st = .busy) (hi : s.bi = s.n)
    (hg : Memory.gather s.outb 0 s.n = some bs) :
    engineMove s = .next { s with out := join bs, status := finishStatus s.status } := by
  simp [engineMove_busy s hb, advance, finish, hi, hg]

/-- START and FINISH of an empty message, from any state outside a run: no block step, so no request (R110 a, D19). -/
theorem run_two_of_emptyMessage {s : State} (hb : s.st ≠ .busy) (ha : s.agenda = [.host .start])
    (hm : s.rawMsg = []) :
    Sys2Proof.core.run 2 s = .next { start (fieldsOf s.cmd) { s with agenda := [], answer := .nothing } with
      out := [], status := finishStatus startStatus } := by
  have hn : (start (fieldsOf s.cmd) { s with agenda := [], answer := .nothing }).n = 0 := by
    simp [operandN, hm, ceil8]
  have hfinish := engineMove_finish (bs := []) (start_st _ _) hn.symm (by rw [hn]; rfl)
  rw [Laws.run_succ_of_next (step_start hb ha),
    Laws.run_succ_of_next ((Laws.step_of_agenda_nil rfl).trans hfinish)]
  rfl

/-- Settles O29: the reset values, and the run of the empty message that a `Start` then is. -/
theorem startAfterResetIsLegal : Obligations.StartAfterResetIsLegal :=
  ⟨fun x => by cases x <;> rfl, rfl, reset_st, reset_err, rfl, _,
    run_two_of_emptyMessage (s := { State.reset with agenda := [.host .start] }) (by decide) rfl rfl,
    by decide, by decide, rfl, by decide, by decide, by decide, by decide⟩

/-! #### The invariant of R37 -/

/-- FINISH keeps it: `OUT` is then the bytes of all `N` blocks, and `ERR` is as it was, NONE. -/
theorem State.Inv.of_finish {s : State} (h : s.Inv) (hb : s.st = .busy) (hi : s.bi = s.n) {bs : List Block}
    (hbs : bs.length = s.n) : State.Inv { s with out := join bs, status := finishStatus s.status } := by
  have hactive : s.st ≠ .idle := by simp [hb]
  have herr : errOf s.status = .none := by simpa [hb, State.err] using h.errIff
  exact {
    keyLength := fun _ => h.keyLength hactive
    blockCount := fun _ => h.blockCount hactive
    index := fun _ => h.index hactive
    written := fun _ => h.written hactive
    counter := fun _ => h.counter hactive
    errIff := by simp [State.err, State.st, herr]
    errCode := .inl (by simp [State.err, herr])
    outLength := by simp [State.st, hbs]
    doneAll := fun _ => hi
    capacities := fun x => by have := h.capacities x; cases x <;> exact this
    blockCapacity := fun _ => h.blockCapacity hactive }

/-- Every engine step keeps it. -/
theorem EngineStep.keeps_inv {s t : State} (hs : EngineStep s t) (h : s.Inv) : t.Inv := by
  cases hs with
  | block hb hi m w _ hw ht =>
    subst ht
    exact h.of_commitBlock hb hi w ((blockOf_ok_counter hw).2 (h.counter (by simp [hb])))
  | raises hb _ _ _ _ ht => subst ht; exact h.of_errorEntry hb
  | finish hb hi bs hg ht => subst ht; exact h.of_finish hb hi (Memory.gather_length hg)
  | idle _ ht => subst ht; exact h

/-- Settles O31, by the cases of a step: the engine's move, or one of the host operations. -/
theorem everyStepKeepsInv : Obligations.EveryStepKeepsInv := by
  intro s t h hstep
  cases step_next hstep with
  | engineLast _ hs => exact hs.keeps_inv h
  | engineNext rest _ hs => exact hs.keeps_inv (h.of_agenda rest)
  | writeBuf rest x b _ ht => subst ht; exact (h.of_agenda rest).of_writeBuf x b
  | writeCmd rest c _ ht => subst ht; exact ((h.of_agenda rest).of_cmd c).of_answer _
  | start rest _ _ ht => subst ht; exact State.Inv.of_start _ ((h.of_agenda rest).of_answer _).capacities
  | startIgnored rest _ _ ht => subst ht; exact (h.of_agenda rest).of_answer _
  | readStatus rest _ ht => subst ht; exact (h.of_agenda rest).of_answer _
  | readOut rest _ ht => subst ht; exact (h.of_agenda rest).of_answer _
  | reset rest _ ht => subst ht; exact reset_inv.of_agenda rest

/-! #### Hidden elements and the host -/

theorem SameToHost.refl (s : State) : SameToHost s s := by constructor <;> intros <;> rfl

theorem SameToHost.st_eq {s t : State} (h : SameToHost s t) : s.st = t.st := congrArg stOf h.status

/-- Taking a move off the agenda keeps two states the same to the host. -/
theorem SameToHost.of_agenda {s t : State} (h : SameToHost s t) (r : List Move) :
    SameToHost { s with agenda := r } { t with agenda := r } :=
  { h with agenda := rfl, run := fun hb => by rw [h.run hb] }

theorem SameToHost.of_answer {s t : State} (h : SameToHost s t) {a b : HostAnswer} (hab : a = b) :
    SameToHost { s with answer := a } { t with answer := b } :=
  { h with answer := hab, run := fun hb => by rw [h.run hb, hab] }

theorem SameToHost.of_cmd {s t : State} (h : SameToHost s t) (c : BitVec 5) :
    SameToHost { s with cmd := c } { t with cmd := c } :=
  { h with cmd := rfl, run := fun hb => by rw [h.run hb] }

theorem SameToHost.of_setRaw {s t : State} (h : SameToHost s t) (x : RawBuf) (b : List Byte) :
    SameToHost (setRaw x b s) (setRaw x b t) := by
  cases x with
  | rawMsg => exact { h with rawMsg := rfl, run := fun hb => by rw [h.run hb] }
  | rawKey => exact { h with rawKey := rfl, run := fun hb => by rw [h.run hb] }
  | rawIv => exact { h with rawIv := rfl, run := fun hb => by rw [h.run hb] }
  | rawNonce => exact { h with rawNonce := rfl, run := fun hb => by rw [h.run hb] }

/-- Whether a `WriteBuf` is refused depends on the platform alone, so both states take it or neither does. -/
theorem SameToHost.of_writeBuf {s t : State} (h : SameToHost s t) (p : Platform) (x : RawBuf) (b : List Byte) :
    SameToHost (writeBuf p x b s) (writeBuf p x b t) := by
  unfold writeBuf
  split
  · exact (h.of_setRaw x b).of_answer rfl
  · exact h.of_answer rfl

/-- START reads host-visible elements only and writes every hidden one (R211): afterwards nothing differs. -/
theorem SameToHost.start_eq {s t : State} (h : SameToHost s t) (c : Command) : start c s = start c t := by
  obtain ⟨hmsg, hkey, hiv, hnonce, hcmd, -, -, hagenda, hanswer, -⟩ := h
  simp only [start, operandMsg, operandN, operandKey, operandIv, operandCtrr, hmsg, hkey, hiv, hnonce, hcmd,
    hagenda, hanswer]

/-- A `Reset` reads the moves to come only, and writes everything else. -/
theorem SameToHost.hostReset_eq {s t : State} (h : SameToHost s t) : hostReset s = hostReset t := by
  simp only [hostReset, h.agenda]

/-- A `Start` of one state is matched by a `Start` of the other. -/
theorem SameToHost.startMove_matched {s t u : State} (h : SameToHost s t) (hu : startMove s = .next u) :
    ∃ v : State, startMove t = .next v ∧ SameToHost u v := by
  by_cases hb : s.st = .busy
  · exact ⟨u, h.run hb ▸ hu, .refl u⟩
  · rw [startMove_notBusy s hb] at hu
    cases hu
    refine ⟨_, startMove_notBusy t (h.st_eq ▸ hb), ?_⟩
    rw [(h.of_answer (a := .nothing) rfl).start_eq, h.cmd]
    exact .refl _

/-- A host operation on one state is matched by the same operation on the other. -/
theorem SameToHost.hostMove_matched {s t u : State} (h : SameToHost s t) {op : HostOp}
    (hu : hostMove op s = .next u) : ∃ v : State, hostMove op t = .next v ∧ SameToHost u v := by
  cases op with
  | writeBuf x b => cases hu; exact ⟨_, rfl, h.of_writeBuf _ x b⟩
  | writeCmd c => cases hu; exact ⟨_, rfl, (h.of_cmd c).of_answer rfl⟩
  | start => exact h.startMove_matched hu
  | readStatus => cases hu; exact ⟨_, rfl, h.of_answer (congrArg _ h.status)⟩
  | readOut => cases hu; exact ⟨_, rfl, h.of_answer (congrArg _ h.out)⟩
  | reset => cases hu; exact ⟨_, rfl, by rw [h.hostReset_eq]; exact .refl _⟩

/-- A turn of the engine is matched: in a run the states are equal, outside one it changes neither. -/
theorem SameToHost.engineMove_matched {s t u : State} (h : SameToHost s t) (hu : engineMove s = .next u) :
    ∃ v : State, engineMove t = .next v ∧ SameToHost u v := by
  by_cases hb : s.st = .busy
  · exact ⟨u, h.run hb ▸ hu, .refl u⟩
  · rw [engineMove_notBusy s hb] at hu
    cases hu
    exact ⟨t, engineMove_notBusy t (h.st_eq ▸ hb), h⟩

/-- Settles O36, by the next move of the agenda, which the two states share. -/
theorem privateElementsUnseen : Obligations.PrivateElementsUnseen := by
  intro s t u h hu
  have hagenda := h.agenda
  unfold step nextMove at hu ⊢
  rw [← hagenda]
  split at hu
  next => exact h.engineMove_matched hu
  next rest _ => exact (h.of_agenda rest).engineMove_matched hu
  next op rest _ => exact (h.of_agenda rest).hostMove_matched hu

/-! #### What one engine step of a command leaves unchanged -/

/-- In a run a command that gives a next state takes the engine's own step of that run. -/
theorem exec_busy_next {i : Instr} {s t : State} (hb : s.st = .busy) (h : exec i s = .next t) : EngineStep s t := by
  cases hp : inProgress i.command.mode i.command.dir s with
  | false => rw [exec_other i s hb hp] at h; cases h
  | true => rw [exec_busy i s hb hp, ← engineMove_busy s hb] at h; exact engineMove_next h

/-- ECB and CTR do not write `CV` (R214). -/
theorem blockOf_ok_cv {p : Platform} {mode : Mode} {dir : Dir} {x : BlockIn} {w : BlockOut}
    (h : blockOf p mode dir x = .ok w) (hm : mode = .ecb ∨ mode = .ctr) : w.cv = x.cv := by
  obtain ⟨y, -, -, hcv, -⟩ := blockOf_ok h
  rw [hcv]
  rcases hm with rfl | rfl <;> cases dir <;> rfl

/-- Only CTR writes `CTRR` (R214). -/
theorem blockOf_ok_ctrr {p : Platform} {mode : Mode} {dir : Dir} {x : BlockIn} {w : BlockOut}
    (h : blockOf p mode dir x = .ok w) (hm : mode ≠ .ctr) : w.ctrr = x.ctrr := by
  obtain ⟨y, -, -, -, hctrr⟩ := blockOf_ok h
  rwa [if_neg hm] at hctrr

/-- Settles O19, by the three ways an engine step in a run ends: the block is written, the step raises, or FINISH. -/
theorem runStepFrame : Obligations.RunStepFrame := by
  intro i s t hb h
  cases exec_busy_next hb h with
  | block _ _ m w _ hw ht =>
    subst ht
    exact ⟨fun x => by cases x <;> rfl, rfl, rfl, rfl, rfl, rfl, rfl, rfl, rfl, rfl, rfl,
      (blockOf_ok_counter hw).1, fun j hj => Memory.read_write_ne _ _ hj, blockOf_ok_cv hw, blockOf_ok_ctrr hw,
      fun _ => ⟨rfl, rfl, rfl⟩, fun hn => absurd hb hn⟩
  | raises _ _ _ _ _ ht =>
    subst ht
    exact ⟨fun x => by cases x <;> rfl, rfl, rfl, rfl, rfl, rfl, rfl, rfl, rfl, rfl, rfl, rfl, fun _ _ => rfl,
      fun _ => rfl, fun _ => rfl, fun hn => by simp at hn, fun _ => ⟨rfl, rfl, rfl, rfl⟩⟩
  | finish _ _ _ _ ht =>
    subst ht
    exact ⟨fun x => by cases x <;> rfl, rfl, rfl, rfl, rfl, rfl, rfl, rfl, rfl, rfl, rfl, rfl, fun _ _ => rfl,
      fun _ => rfl, fun _ => rfl, fun hn => by simp [State.st] at hn, fun _ => ⟨rfl, rfl, rfl, rfl⟩⟩
  | idle hn _ => exact absurd hb hn

end Sys2Proof.Machine

/-! ### Family `20_memory.md`: the host's operations, the run they do not reach, and the wide path -/

namespace Sys2Proof

/-! #### A Block on the 64-bit path -/

/-- Byte `j` of a Block, counted from the top, is in bits `63 - 8j` to `56 - 8j` of the path (R55): what is appended
below it is skipped, what is appended above it is not reached. -/
theorem Block.toWide_byte (a : Block) {j : Nat} (hj : j < 8) : a.toWide.extractLsb' (56 - 8 * j) 8 = a.byte j := by
  interval_cases j <;>
    simp (disch := omega) only [Block.toWide, BitVec.extractLsb'_append_eq_of_le,
      BitVec.extractLsb'_append_eq_of_add_le] <;>
    exact BitVec.extractLsb'_eq_self

/-- The path carries every Block: each of its bytes is read where `toWide` put it. -/
@[simp] theorem Block.ofWide_toWide (a : Block) : Block.ofWide a.toWide = a :=
  Block.bytes_injective <| List.ext_getElem rfl fun j hj _ => by
    simp only [Block.bytes_length] at hj
    have hbyte := a.toWide_byte hj
    interval_cases j <;> exact hbyte

/-- The path carries every word: the eight bytes read from it lie end to end. -/
@[simp] theorem Block.toWide_ofWide (w : BitVec 64) : (Block.ofWide w).toWide = w := by
  simp only [Block.toWide, Block.ofWide, BitVec.extractLsb'_append_extractLsb'_eq_extractLsb']
  exact BitVec.extractLsb'_eq_self

/-- The bytes of an XOR are the XORs of the bytes. -/
theorem Block.ofWide_xor (v w : BitVec 64) :
    Block.ofWide (v ^^^ w) = Machine.xorBlock (Block.ofWide v) (Block.ofWide w) := by
  simp only [Block.ofWide, Machine.xorBlock, BitVec.extractLsb'_xor]

theorem Block.toWide_xorBlock (a b : Block) : (Machine.xorBlock a b).toWide = a.toWide ^^^ b.toWide := by
  rw [← Block.toWide_ofWide (a.toWide ^^^ b.toWide), Block.ofWide_xor, Block.ofWide_toWide, Block.ofWide_toWide]

namespace Machine

/-- Settles O49: the bytes of the path, from them the two inverse laws, and from those the XOR. -/
theorem widePathAgrees : Obligations.WidePathAgrees := fun a b w =>
  ⟨fun _ hj => a.toWide_byte hj, a.ofWide_toWide, Block.toWide_ofWide w, a.toWide_xorBlock b⟩

/-! #### The next move of the agenda -/

theorem step_host {s : State} {op : HostOp} {rest : List Move} (h : s.agenda = .host op :: rest) :
    step s = hostMove op { s with agenda := rest } := by
  rw [step, nextMove, h]

theorem step_engine {s : State} {rest : List Move} (h : s.agenda = .engine :: rest) :
    step s = engineMove { s with agenda := rest } := by
  rw [step, nextMove, h]

/-! #### The raw buffers -/

@[simp] theorem raw_of_answer (s : State) (r : HostAnswer) (x : RawBuf) :
    State.raw { s with answer := r } x = s.raw x := by
  cases x <;> rfl

@[simp] theorem raw_of_agenda (s : State) (r : List Move) (x : RawBuf) :
    State.raw { s with agenda := r } x = s.raw x := by
  cases x <;> rfl

@[simp] theorem setRaw_raw_same (x : RawBuf) (b : List Byte) (s : State) : (setRaw x b s).raw x = b := by
  cases x <;> rfl

theorem setRaw_raw_ne {x y : RawBuf} (h : y ≠ x) (b : List Byte) (s : State) : (setRaw x b s).raw y = s.raw y := by
  cases x <;> cases y <;> simp [setRaw, State.raw] at h ⊢

/-- `WriteBuf` leaves the other raw buffers, refused or not. -/
theorem writeBuf_raw_ne (p : Platform) {x y : RawBuf} (h : y ≠ x) (b : List Byte) (s : State) :
    (writeBuf p x b s).raw y = s.raw y := by
  unfold writeBuf
  split
  · rw [raw_of_answer, setRaw_raw_ne h]
  · rw [raw_of_answer]

/-- `WriteBuf` writes the buffer it names if the bytes are within its capacity (R52). -/
theorem writeBuf_raw_same (p : Platform) (x : RawBuf) (b : List Byte) (s : State) :
    (writeBuf p x b s).raw x = if fits (capacity p x) b.length = true then b else s.raw x := by
  unfold writeBuf
  split
  · rw [raw_of_answer, setRaw_raw_same]
  · rw [raw_of_answer]

/-- `WriteBuf` answers a refusal, and only that (R52, D13). -/
theorem writeBuf_answer (p : Platform) (x : RawBuf) (b : List Byte) (s : State) :
    (writeBuf p x b s).answer = if fits (capacity p x) b.length = true then .nothing else .refusedWrite := by
  unfold writeBuf
  split <;> rfl

/-! #### What the host does leaves the run as it is -/

theorem sameRun_agenda (s : State) (r : List Move) : SameRun s { s with agenda := r } := by constructor <;> rfl

theorem sameRun_answer (s : State) (r : HostAnswer) : SameRun s { s with answer := r } := by constructor <;> rfl

theorem sameRun_writeCmd (s : State) (c : BitVec 5) : SameRun s (writeCmd c s) := by constructor <;> rfl

theorem sameRun_writeBuf (p : Platform) (x : RawBuf) (b : List Byte) (s : State) :
    SameRun s (writeBuf p x b s) := by constructor <;> simp

/-- Settles O26: the write reaches the buffer it names, or, refused, the answer only. -/
theorem hostWritesTakeEffect : Obligations.HostWritesTakeEffect := by
  refine ⟨fun s rest x b ha => ?_, fun s rest c ha => step_host ha⟩
  refine ⟨_, step_host ha, (sameRun_agenda s rest).trans (sameRun_writeBuf _ x b _), by simp, by simp,
    fun y hy => by rw [writeBuf_raw_ne _ hy, raw_of_agenda], ?_⟩
  rw [writeBuf_raw_same, writeBuf_answer, raw_of_agenda]
  split <;> exact ⟨rfl, rfl⟩

/-- Settles O27: each read is one move of the agenda; the length of `OUT` is R37 (g). -/
theorem hostReadsHaveNoSideEffect : Obligations.HostReadsHaveNoSideEffect := by
  refine fun s rest => ⟨step_host, fun ha => ⟨step_host ha, fun h => ⟨fun hn => ?_, fun hd => ?_⟩⟩⟩
  · exact List.eq_nil_of_length_eq_zero (by rw [h.outLength, if_neg hn])
  · rw [h.outLength, if_pos hd]

/-- A host operation other than `Reset`, and other than a `Start` that is not ignored, leaves the run and the moves to
come (R61). -/
theorem hostMove_sameRun {op : HostOp} {s : State} (hreset : op ≠ .reset) (hstart : op = .start → s.st = .busy) :
    ∃ t : State, hostMove op s = .next t ∧ SameRun s t ∧ t.agenda = s.agenda := by
  cases op with
  | writeBuf x b => exact ⟨_, rfl, sameRun_writeBuf _ x b s, by simp⟩
  | writeCmd c => exact ⟨_, rfl, sameRun_writeCmd s c, rfl⟩
  | start => exact ⟨_, startMove_busy s (hstart rfl), sameRun_answer s _, rfl⟩
  | readStatus => exact ⟨_, rfl, sameRun_answer s _, rfl⟩
  | readOut => exact ⟨_, rfl, sameRun_answer s _, rfl⟩
  | reset => exact absurd rfl hreset

/-! #### The engine does not read what the host has written since START -/

/-- The run of `s` beside the host's side of `t`: the raw buffers, `CMD`, the moves to come and the answer. -/
def State.withHostSide (s t : State) : State :=
  { s with
    rawMsg := t.rawMsg
    rawKey := t.rawKey
    rawIv := t.rawIv
    rawNonce := t.rawNonce
    cmd := t.cmd
    agenda := t.agenda
    answer := t.answer }

theorem sameRun_withHostSide (s t : State) : SameRun s (s.withHostSide t) := by constructor <;> rfl

/-- Two states of the same run differ in the host's side only. -/
theorem SameRun.withHostSide_eq {s t : State} (h : SameRun s t) : s.withHostSide t = t := by
  simp only [State.withHostSide, h.status, h.out, h.alg, h.dir, h.mode, h.n, h.bi, h.keyn, h.ivn, h.cv, h.ctrr,
    h.msg, h.outb]

/-- The engine takes each of its steps where the step's conditions hold: the converse of `engineMove_next`. -/
theorem EngineStep.engineMove_eq {s t : State} (h : EngineStep s t) : engineMove s = .next t := by
  cases h with
  | block hb hi m w hm hw ht => simp [engineMove_busy s hb, advance, blockStep, hi, hm, hw, ht]
  | raises hb hi m hm hw ht => simp [engineMove_busy s hb, advance, blockStep, hi, hm, hw, ht]
  | finish hb hi bs hg ht => rw [engineMove_finish hb hi hg, ht]
  | idle hb ht => rw [engineMove_notBusy s hb, ht]

/-- An engine step neither reads nor writes the host's side. -/
theorem EngineStep.withHostSide {s u : State} (h : EngineStep s u) (t : State) :
    EngineStep (s.withHostSide t) (u.withHostSide t) := by
  cases h with
  | block hb hi m w hm hw ht => subst ht; exact .block hb hi m w hm hw rfl
  | raises hb hi m hm hw ht => subst ht; exact .raises hb hi m hm hw rfl
  | finish hb hi bs hg ht => subst ht; exact .finish hb hi bs hg rfl
  | idle hb ht => subst ht; exact .idle hb rfl

/-- The engine leaves the moves to come. -/
theorem EngineStep.agenda_eq {s t : State} (h : EngineStep s t) : t.agenda = s.agenda := by
  cases h with
  | block _ _ _ _ _ _ ht => subst ht; rfl
  | raises _ _ _ _ _ ht => subst ht; rfl
  | finish _ _ _ _ ht => subst ht; rfl
  | idle _ ht => subst ht; rfl

/-- A turn of the engine is matched in every state of the same run. -/
theorem SameRun.engineMove_matched {s t u : State} (h : SameRun s t) (hu : engineMove s = .next u) :
    ∃ v : State, engineMove t = .next v ∧ SameRun u v := by
  have hv := ((engineMove_next hu).withHostSide t).engineMove_eq
  rw [h.withHostSide_eq] at hv
  exact ⟨_, hv, sameRun_withHostSide u t⟩

/-- Settles O37: `Start` is ignored in a run and the other operations do not reach it; the engine reads the run only. -/
theorem hostCannotDisturbARun : Obligations.HostCannotDisturbARun := by
  refine ⟨fun s op rest hb ha hop => ?_, fun _ _ _ h hu => h.engineMove_matched hu⟩
  obtain ⟨t, ht, hrun, -⟩ := hostMove_sameRun (s := { s with agenda := rest }) hop fun _ => hb
  exact ⟨t, (step_host ha).trans ht, (sameRun_agenda s rest).trans hrun⟩

/-- Of two states of the same run, one takes the moves on its agenda and the other as many turns of the engine as are
among them: they end in the same run. -/
theorem run_moves_sameRun {moves : List Move} {s s' t : State} (h : SameRun s s') (ha : s.agenda = moves)
    (ha' : s'.agenda = []) (hm : ∀ m ∈ moves, m ≠ .host .reset ∧ m ≠ .host .start)
    (ht : Sys2Proof.core.run moves.length s = .next t) :
    ∃ u : State, Sys2Proof.core.run (moves.count .engine) s' = .next u ∧ SameRun t u := by
  induction moves generalizing s s' with
  | nil => cases ht; exact ⟨s', rfl, h⟩
  | cons move rest ih =>
    have hrest : ∀ m ∈ rest, m ≠ .host .reset ∧ m ≠ .host .start := fun m hr => hm m (.tail _ hr)
    have h' : SameRun { s with agenda := rest } s' := (sameRun_agenda s rest).symm.trans h
    obtain ⟨s₁, hs₁, hend⟩ := Laws.next_of_run_succ ht
    cases move with
    | engine =>
      rw [step_engine ha] at hs₁
      obtain ⟨v, hv, hrun⟩ := h'.engineMove_matched hs₁
      rw [List.count_cons_self, Laws.run_succ_of_next ((Laws.step_of_agenda_nil ha').trans hv)]
      exact ih hrun (engineMove_next hs₁).agenda_eq ((engineMove_next hv).agenda_eq.trans ha') hrest hend
    | host op =>
      obtain ⟨hreset, hstart⟩ := hm (.host op) (.head _)
      obtain ⟨v, hv, hrun, hagenda⟩ := hostMove_sameRun (op := op) (s := { s with agenda := rest })
        (fun e => hreset (e ▸ rfl)) fun e => absurd (e ▸ rfl) hstart
      rw [step_host ha, hv] at hs₁
      cases hs₁
      rw [List.count_cons_of_ne (by simp)]
      exact ih (hrun.symm.trans h') hagenda ha' hrest hend

/-- Settles O38: by induction on the moves; a host operation leaves the run, a turn of the engine is matched. -/
theorem interleavingDoesNotMatter : Obligations.InterleavingDoesNotMatter := fun s _ moves _ hm ht =>
  run_moves_sameRun ((sameRun_agenda s moves).symm.trans (sameRun_agenda s [])) rfl rfl hm ht

end Machine

end Sys2Proof

/-! ### Family `30_encoding.md`: the command word, its fields, and what `Start` makes of it -/

namespace Sys2Proof

/-! #### The command word and the byte it travels in -/

/-- A row's own word decodes to the row (R83). -/
@[simp] theorem decodeCmd_encode (i : Instr) : decodeCmd (encode i) = i := by
  cases i with
  | _ a => cases a <;> rfl

/-- Each of the 32 words is the word of the row it decodes to (R83). -/
@[simp] theorem encode_decodeCmd (c : BitVec 5) : encode (decodeCmd c) = c := by
  revert c; decide

/-- A byte is a 5-bit value exactly when none of its three top bits is set. -/
theorem topBits_eq_zero_iff (b : Byte) : b.extractLsb' 5 3 = 0#3 ↔ b.toNat < 32 := by
  have hb := b.isLt
  rw [← BitVec.toNat_inj, BitVec.extractLsb'_toNat, Nat.shiftRight_eq_div_pow]
  simp only [BitVec.toNat_ofNat]
  omega

/-- A byte is its three top bits over its word. -/
theorem topBits_append_word (b : Byte) : b.extractLsb' 5 3 ++ b.extractLsb' 0 5 = b :=
  (BitVec.extractLsb'_append_extractLsb'_eq_extractLsb' (start₁ := 0) (start₂ := 5) rfl).trans
    BitVec.extractLsb'_eq_self

/-- The one thing `decode` does with a first byte. -/
theorem decode_cons (b : Byte) (rest : List Byte) :
    decode (b :: rest) =
      if b.toNat < 32 then .ok (decodeCmd (b.extractLsb' 0 5), rest) else .error .notFiveBits := by
  simp only [decode, topBits_eq_zero_iff]

/-- Bytes decode to a command and a rest exactly when they are the command's own byte and the rest: three zero bits
above the word. -/
theorem decode_eq_ok_iff {bs : List Byte} {i : Instr} {rest : List Byte} :
    decode bs = .ok (i, rest) ↔ bs = encodeBytes i ++ rest := by
  constructor
  · intro h
    cases bs with
    | nil => cases h
    | cons b tail =>
      rw [decode] at h
      split at h
      next htop =>
        cases h
        simp [encodeBytes, ← htop, topBits_append_word]
      next => cases h
  · rintro rfl
    have htop : (0#3 ++ encode i).extractLsb' 5 3 = 0#3 := BitVec.extractLsb'_append_eq_left
    have hword : (0#3 ++ encode i).extractLsb' 0 5 = encode i := BitVec.extractLsb'_append_eq_right
    simp [encodeBytes, decode, htop, hword]

/-- A table word of eight bits is laid out as the command's own byte. -/
theorem layWord_encode (i : Instr) : layWord 1 (encode i).toNat = encodeBytes i := by
  have hbyte : BitVec.ofNat 8 (encode i).toNat = 0#3 ++ encode i := by
    have hlt : (encode i).toNat < 2 ^ 8 := by have := (encode i).isLt; omega
    rw [← BitVec.toNat_inj, BitVec.toNat_ofNat, Nat.mod_eq_of_lt hlt, BitVec.toNat_append]
    simp
  simp [layWord, encodeBytes, hbyte]

@[simp] theorem decodeTableWord_encode (i : Instr) : decodeTableWord 8 (encode i).toNat = some i := by
  have hdecode : decode (layWord 1 (encode i).toNat) = .ok (i, []) :=
    decode_eq_ok_iff.2 (by rw [layWord_encode, List.append_nil])
  simp [decodeTableWord, hdecode]

theorem Instr.wf_eq_true (i : Instr) : i.wf = true := by cases i <;> rfl

/-- Settles O1: one byte, and the table word, which is laid out as that byte. -/
theorem decodeOfEncodeIsIdentity : Obligations.DecodeOfEncodeIsIdentity := fun i _ =>
  ⟨i.wf_eq_true, decode_eq_ok_iff.2 rfl, decodeTableWord_encode i⟩

/-- Settles O2: `decode_eq_ok_iff` read backwards; the boundary is where the three top bits begin. -/
theorem encodeOfDecodeIsIdentity : Obligations.EncodeOfDecodeIsIdentity := by
  refine ⟨fun _ _ _ => decode_eq_ok_iff.1, fun b rest => ?_⟩
  rw [decode_cons]
  split
  next hlt => simp [hlt]
  next hge => simpa using hge

/-- Settles O3: the decoder evaluated on each word, and the row's command read off. -/
theorem opcodeMapAsPrinted : Obligations.OpcodeMapAsPrinted :=
  ⟨rfl, rfl, rfl, rfl, rfl, rfl, rfl, rfl, rfl, rfl, rfl, rfl, rfl, rfl, rfl, rfl,
    rfl, rfl, rfl, rfl, rfl, rfl, rfl, rfl, rfl, rfl, rfl, rfl, rfl, rfl, rfl, rfl,
    fun _ => ⟨rfl, rfl, rfl, rfl, rfl, rfl, rfl, rfl, rfl, rfl, rfl, rfl, rfl, rfl, rfl, rfl⟩⟩

/-! #### The three fields of the word -/

/-- The mode of a `MODESEL` value, by its number: every value without a mode of its own is ECB (R85, R86). -/
def modeOfSel (m : BitVec 3) : Mode :=
  match m.toNat with
  | 1 => .cbc
  | 2 => .cfb
  | 3 => .ofb
  | 4 => .ctr
  | _ => .ecb

/-- The mode read bit by bit is the mode of the number in `CMD[2:0]`. -/
theorem modeOf_eq_modeOfSel (c : BitVec 5) : modeOf c = modeOfSel (c.extractLsb' 0 3) := by
  revert c; decide

theorem modeOfSel_of_five_le {m : BitVec 3} (h : 5 ≤ m.toNat) : modeOfSel m = .ecb := by
  revert m; decide

/-- The fields of a word put together from its three selectors (R80). -/
theorem fieldsOf_append (a d : BitVec 1) (m : BitVec 3) :
    fieldsOf (a ++ (d ++ m)) =
      ⟨modeOfSel m, if d = 1 then .decrypt else .encrypt, if a = 1 then .triple else .single⟩ := by
  revert a d m; decide

/-- A fallback code is ECB in the word's own direction and algorithm (R86). -/
theorem fieldsOf_of_fallback {c : BitVec 5} (h : 5 ≤ (c.extractLsb' 0 3).toNat) :
    fieldsOf c = ⟨.ecb, dirOf c, algOf c⟩ := by
  rw [fieldsOf, modeOf_eq_modeOfSel, modeOfSel_of_five_le h]

/-- Clearing `MODESEL` selects ECB and leaves the direction and the algorithm. -/
theorem fieldsOf_clearModesel (c : BitVec 5) : fieldsOf (c &&& 0b11000#5) = ⟨.ecb, dirOf c, algOf c⟩ := by
  revert c; decide

/-! #### The selector strings of a call -/

theorem modeOfSel_modesel (s : String) :
    modeOfSel (modesel s) = if s = "CBC" then .cbc else if s = "CFB" then .cfb else if s = "OFB" then .ofb
      else if s = "CTR" then .ctr else .ecb := by
  unfold modesel
  split_ifs <;> rfl

/-- A direction string is taken if it is one of the two, and then says which (R82, D4). -/
theorem dirsel_eq (s : String) :
    dirsel s = if wfDirection s = true then some (if s = "decrypt" then 1 else 0) else none := by
  by_cases he : s = "encrypt"
  · subst he; rfl
  · by_cases hd : s = "decrypt" <;> simp [dirsel, wfDirection, he, hd]

/-- An algorithm string is taken if it is one of the two, and then says which (R82, D4). -/
theorem algsel_eq (s : String) :
    algsel s = if wfAlgorithm s = true then some (if s = "triple" then 1 else 0) else none := by
  by_cases hs : s = "single"
  · subst hs; rfl
  · by_cases ht : s = "triple" <;> simp [algsel, wfAlgorithm, hs, ht]

/-- The driver's word for a call, issued exactly for a well-formed one. -/
theorem CallSelectors.cmd_eq (c : CallSelectors) :
    c.cmd = if c.wf = true then
        some ((if c.algorithm = "triple" then 1#1 else 0#1) ++
          ((if c.direction = "decrypt" then 1#1 else 0#1) ++ modesel c.mode))
      else none := by
  rw [CallSelectors.cmd, dirsel_eq, algsel_eq, CallSelectors.wf]
  cases wfDirection c.direction <;> cases wfAlgorithm c.algorithm <;> rfl

/-- Settles O6: the word is put together from the three selectors, and its fields are read back from them. -/
theorem selectorStringsIssueCommands : Obligations.SelectorStringsIssueCommands := by
  refine fun c => ⟨by rw [c.cmd_eq]; cases c.wf <;> rfl, fun w hw => ?_⟩
  rw [c.cmd_eq] at hw
  split at hw
  next =>
    cases hw
    rw [fieldsOf_append, modeOfSel_modesel]
    congr 1 <;> split <;> rfl
  next => cases hw

namespace Machine

/-! #### A presented command -/

/-- `Start` outside a run executes the command in `CMD` (R85). -/
theorem startMove_eq_exec {s : State} (h : s.st ≠ .busy) :
    startMove s = exec (decodeCmd s.cmd) { s with answer := .nothing } := by
  rw [startMove, if_neg h]

theorem withFetchWord_encode (i : Instr) (s : State) :
    s.withFetchWord 8 (encode i).toNat = presentCommand (encode i) s := by
  rw [State.withFetchWord, decodeTableWord_encode]

theorem presentCommand_st_ne_busy (c : BitVec 5) (s : State) : (presentCommand c s).st ≠ .busy := by
  show stOf (if s.st = .busy then packStatus .idle .none else s.status) ≠ .busy
  split
  next => simp
  next hb => exact hb

theorem presentCommand_agenda (c : BitVec 5) (s : State) :
    (presentCommand c s).agenda = .host .start :: s.agenda := rfl

@[simp] theorem presentCommand_raw (c : BitVec 5) (s : State) (x : RawBuf) : (presentCommand c s).raw x = s.raw x := by
  cases x <;> rfl

/-- Settles O8: `Start` is the next move, and `CMD` holds the command's own word. -/
theorem presentedCommandRunsNext : Obligations.PresentedCommandRunsNext := by
  rintro i s u rfl
  rw [withFetchWord_encode]
  have hb := presentCommand_st_ne_busy (encode i) s
  refine ⟨?_, hb, rfl, presentCommand_raw _ s⟩
  calc step (presentCommand (encode i) s)
      = startMove { presentCommand (encode i) s with agenda := s.agenda } := step_host (presentCommand_agenda _ s)
    _ = exec (decodeCmd (encode i)) { presentCommand (encode i) s with agenda := s.agenda, answer := .nothing } :=
        startMove_eq_exec hb
    _ = exec i { presentCommand (encode i) s with agenda := s.agenda, answer := .nothing } := by
        rw [decodeCmd_encode]

/-! #### What START latches -/

/-- Settles O5: the two words have the same fields, and START reads nothing else of `CMD`. -/
theorem fallbackCodesRunEcb : Obligations.FallbackCodesRunEcb := by
  intro s rest c hsel hb ha
  refine ⟨start ⟨.ecb, dirOf c, algOf c⟩ { s with agenda := rest, answer := .nothing }, rfl, ?_, ?_⟩
  · rw [step_start (s := { s with cmd := c }) hb ha, fieldsOf_of_fallback hsel]
    rfl
  · rw [step_start (s := { s with cmd := c &&& 0b11000#5 }) hb ha, fieldsOf_clearModesel]
    rfl

/-- An engine step leaves the host's side as it was. -/
theorem EngineStep.hostSide_kept {s t : State} (h : EngineStep s t) : t.withHostSide s = t := by
  cases h with
  | block _ _ _ _ _ _ ht => subst ht; rfl
  | raises _ _ _ _ _ ht => subst ht; rfl
  | finish _ _ _ _ ht => subst ht; rfl
  | idle _ ht => subst ht; rfl

/-- A turn of the engine is the same whatever `CMD` holds, and leaves it (R85). -/
theorem engineMove_of_cmd {s t : State} (c : BitVec 5) (h : engineMove s = .next t) :
    engineMove { s with cmd := c } = .next { t with cmd := c } := by
  have hs := engineMove_next h
  rw [← hs.hostSide_kept]
  exact (hs.withHostSide { s with cmd := c }).engineMove_eq

/-- An engine step leaves what START latched of the command. -/
theorem EngineStep.latch_kept {s t : State} (h : EngineStep s t) :
    t.alg = s.alg ∧ t.dir = s.dir ∧ t.mode = s.mode := by
  cases h with
  | block _ _ _ _ _ _ ht => subst ht; exact ⟨rfl, rfl, rfl⟩
  | raises _ _ _ _ _ ht => subst ht; exact ⟨rfl, rfl, rfl⟩
  | finish _ _ _ _ ht => subst ht; exact ⟨rfl, rfl, rfl⟩
  | idle _ ht => subst ht; exact ⟨rfl, rfl, rfl⟩

/-- In a run only a `Reset` writes what START latched: the engine leaves it, and the host does not reach it (R61). -/
theorem step_latch_kept {s t : State} (hb : s.st = .busy) (h : step s = .next t)
    (hreset : s.agenda.head? ≠ some (.host .reset)) : t.alg = s.alg ∧ t.dir = s.dir ∧ t.mode = s.mode := by
  cases step_next h with
  | engineLast _ hs => exact hs.latch_kept
  | engineNext _ _ hs => exact hs.latch_kept
  | writeBuf _ x b _ ht => subst ht; exact ⟨writeBuf_alg .., writeBuf_dir .., writeBuf_mode ..⟩
  | writeCmd _ _ _ ht => subst ht; exact ⟨rfl, rfl, rfl⟩
  | start _ _ hn _ => exact absurd hb hn
  | startIgnored _ _ _ ht => subst ht; exact ⟨rfl, rfl, rfl⟩
  | readStatus _ _ ht => subst ht; exact ⟨rfl, rfl, rfl⟩
  | readOut _ _ ht => subst ht; exact ⟨rfl, rfl, rfl⟩
  | reset _ ha _ => exact absurd (by rw [ha]; rfl) hreset

/-- Settles O4: START computes the fields; the engine's turn does not see `CMD`; a step of the run keeps the latch. -/
theorem startLatchesTheFields : Obligations.StartLatchesTheFields := by
  refine ⟨fun s rest hb ha => ?_, fun _ _ c h => engineMove_of_cmd c h, fun _ _ => step_latch_kept⟩
  exact ⟨_, step_start hb ha, rfl, rfl, modeOf_eq_modeOfSel s.cmd⟩

end Machine

end Sys2Proof

/-! ### Family `40_block_utilities.md`: split, pad, join, xor and normalize -/

namespace Sys2Proof.Machine

open Sys2Proof

/-! #### Whole blocks -/

/-- `ceil(a/8)` blocks hold `a` bytes (R10). -/
theorem le_mul_ceil8 (a : Nat) : a ≤ 8 * ceil8 a := by unfold ceil8; omega

/-- At most seven bytes of the last block are padding (R110). -/
theorem mul_ceil8_lt (a : Nat) : 8 * ceil8 a < a + 8 := by unfold ceil8; omega

theorem mul_ceil8_of_mod_eq_zero {a : Nat} (h : a % 8 = 0) : 8 * ceil8 a = a := by unfold ceil8; omega

@[simp] theorem pad_length (b : List Byte) : (pad b).length = 8 * ceil8 b.length := by
  rw [← join_split_eq_pad, join_length, split_length]

/-- Nothing is appended to a whole number of blocks (R111). -/
theorem pad_of_mod_eq_zero {b : List Byte} (h : b.length % 8 = 0) : pad b = b := by
  rw [pad, mul_ceil8_of_mod_eq_zero h, Nat.sub_self, List.replicate_zero, List.append_nil]

/-- Byte `j` of block `i` stands at `8*i + j` of the join (R112): block 0 is the first eight bytes, and the other blocks
are the join behind them. -/
theorem join_getElem? (M : List Block) (i : Nat) {j : Nat} (hj : j < 8) :
    (join M)[8 * i + j]? = M[i]?.map fun m => m.byte j := by
  induction M generalizing i with
  | nil => rfl
  | cons b M ih =>
    rw [join_cons]
    cases i with
    | zero =>
      rw [Nat.mul_zero, Nat.zero_add, List.getElem?_append_left (by rwa [Block.bytes_length]), b.byte_lt j hj]
      rfl
    | succ i =>
      rw [List.getElem?_append_right (by rw [Block.bytes_length]; omega), Block.bytes_length,
        show 8 * (i + 1) + j - 8 = 8 * i + j by omega, ih, List.getElem?_cons_succ]

/-- Settles O44: the count, its two bounds, and the bytes by `split_byte`. -/
theorem splitPadsTheLastChunk : Obligations.SplitPadsTheLastChunk := fun b =>
  ⟨split_length b, mul_ceil8_lt b.length, le_mul_ceil8 b.length, fun i j hi hj => split_byte b i hi j hj⟩

/-- Settles O45: the laws of `pad`, then those of `join`. -/
theorem joinUndoesSplit : Obligations.JoinUndoesSplit :=
  ⟨fun b => ⟨rfl, join_split_eq_pad b, pad_length b, pad_of_mod_eq_zero⟩,
    fun M => ⟨split_join_self M, join_length M, fun i _ _ hj => join_getElem? M i hj⟩⟩

/-! #### normalize -/

@[simp] theorem normalize_nil (n : Nat) : normalize [] n = List.replicate n 0 := rfl

/-- Up to the buffer's own length no index wraps around (R116). -/
theorem normalize_eq_take {buf : List Byte} {n : Nat} (h : n ≤ buf.length) : normalize buf n = buf.take n := by
  refine List.ext_getElem? fun i => ?_
  by_cases hi : i < n
  · rw [normalize_getElem buf n i hi (by omega), Nat.mod_eq_of_lt (by omega), List.getElem?_take_of_lt hi]
  · rw [List.getElem?_eq_none (by rw [normalize_length]; omega), List.getElem?_take_eq_none (by omega)]

/-- Settles O46: the length, the empty buffer, the cyclic index, and the index that never wraps. -/
theorem normalizeIsCyclic : Obligations.NormalizeIsCyclic := fun buf n =>
  ⟨normalize_length buf n, fun hb => hb ▸ normalize_nil n,
    fun i hi hb => normalize_getElem buf n i hi fun h0 => hb (List.length_eq_zero_iff.1 h0), normalize_eq_take⟩

/-! #### xor -/

theorem xorBytes_of_length_eq {a b : List Byte} (h : a.length = b.length) :
    xorBytes a b = .ok (List.zipWith (fun x y => x ^^^ y) a b) := if_pos h

theorem xorBytes_of_length_ne {a b : List Byte} (h : a.length ≠ b.length) :
    xorBytes a b = .error (.lengthMismatch a.length b.length) := if_neg h

/-- The same operand again takes an XOR back, in every lane. -/
theorem zipWith_xor_cancel {a b : List Byte} (h : a.length = b.length) :
    List.zipWith (fun x y => x ^^^ y) (List.zipWith (fun x y => x ^^^ y) a b) b = a := by
  refine List.ext_getElem (by simp [h]) fun j _ _ => ?_
  rw [List.getElem_zipWith, List.getElem_zipWith, BitVec.xor_assoc, BitVec.xor_self, BitVec.xor_zero]

/-- On the bytes of two Blocks `xor` is the combiner (R114). -/
theorem xorBytes_bytes (a b : Block) : xorBytes a.bytes b.bytes = .ok (xorBlock a b).bytes := by
  rw [xorBytes_of_length_eq (by simp), xorBlock_bytes]

/-- Settles O47: equal lengths lane by lane, unequal ones by the check, and the combiner by its own laws. -/
theorem xorIsLaneWise : Obligations.XorIsLaneWise := by
  refine ⟨fun a b h => ⟨_, xorBytes_of_length_eq h, ?length, fun j x y hx hy => ?lane, ?undo⟩,
    fun _ _ => xorBytes_of_length_ne,
    fun a b => ⟨xorBytes_bytes a b, xorBlock_cancel a b, xorBlock_self a, xorBlock_zero a⟩⟩
  case length => rw [List.length_zipWith, h, Nat.min_self]
  case lane => rw [List.getElem?_zipWith, hx, hy]
  case undo => rw [xorBytes_of_length_eq (by simp [h]), zipWith_xor_cancel h]

end Sys2Proof.Machine

/-! ### Family `41_cipher_adapter.md`: the direction of the primitive that a command uses -/

namespace Sys2Proof.Machine

open Sys2Proof

/-- Which commands use `DEC` (R136). -/
theorem opOf_eq_dec_iff (mode : Mode) (dir : Dir) :
    opOf mode dir = .dec ↔ dir = .decrypt ∧ (mode = .ecb ∨ mode = .cbc) := by
  cases mode <;> cases dir <;> decide

theorem opOf_eq_enc_iff (mode : Mode) (dir : Dir) :
    opOf mode dir = .enc ↔ ¬ (dir = .decrypt ∧ (mode = .ecb ∨ mode = .cbc)) := by
  rw [← opOf_eq_dec_iff]
  cases opOf mode dir <;> decide

/-- An encrypt request reads nothing of the platform but `E` (R132). -/
theorem prim_enc_congr {p q : Platform} (h : p.E = q.E) : prim p .enc = prim q .enc := by
  funext alg key b
  simp only [prim, h]

/-- A decrypt request reads nothing of the platform but `D` (R132). -/
theorem prim_dec_congr {p q : Platform} (h : p.D = q.D) : prim p .dec = prim q .dec := by
  funext alg key b
  simp only [prim, h]

/-- Each block step is the datapath under the selections of its command (R214). -/
theorem blockOf_eq_datapath (p : Platform) (mode : Mode) (dir : Dir) (x : BlockIn) :
    blockOf p mode dir x = datapath p mode dir x := by
  cases mode with
  | ctr =>
    cases dir <;>
      · simp only [blockOf, ctrBlock, datapath, opOf, inputOf, ctrrOf, outputOf, cvOf]
        cases prim p .enc x.alg x.key x.ctrr with
        | error e => rfl
        | ok y => cases ctrinc x.ctrr <;> rfl
  | _ => cases dir <;> rfl

/-- A block step reads the platform only through the one operation that its command selects (R136, R214). -/
theorem blockOf_congr {p q : Platform} {mode : Mode} {dir : Dir}
    (h : prim p (opOf mode dir) = prim q (opOf mode dir)) : blockOf p mode dir = blockOf q mode dir := by
  funext x
  rw [blockOf_eq_datapath, blockOf_eq_datapath, datapath, datapath, h]

/-- A run reads the platform only through its block steps (R219). -/
theorem run_congr {p q : Platform} {c : Command} (h : blockOf p c.mode c.dir = blockOf q c.mode c.dir)
    (m k iv no : List Byte) : run p m k iv no c = run q m k iv no c := by
  rw [run, run, h]

/-- Settles O25: the platforms agree in the direction the command selects, so in its block steps, so in the run. -/
theorem eachCommandUsesOneDirection : Obligations.EachCommandUsesOneDirection := by
  intro p q m k iv no c hpq
  refine run_congr (blockOf_congr ?_) m k iv no
  split at hpq
  next hdec => rw [(opOf_eq_dec_iff c.mode c.dir).2 hdec, prim_dec_congr hpq]
  next henc => rw [(opOf_eq_enc_iff c.mode c.dir).2 henc, prim_enc_congr hpq]

end Sys2Proof.Machine

/-! ### Family `42_ecb.md`: the refusal of another command, the block step of ECB, and whole runs block by block -/

namespace Sys2Proof

/-- The direction of the primitive that a request goes to (R132). -/
def Platform.answer (p : Platform) : PrimOp → Alg → List Byte → Block → Option Block
  | .enc => p.E
  | .dec => p.D

namespace Machine

/-! #### The command in progress -/

/-- Which modes run the same block step in both directions (R180, R190). -/
theorem dirFree_iff (mode : Mode) : dirFree mode = true ↔ mode = .ofb ∨ mode = .ctr := by
  cases mode <;> decide

/-- The enabling condition of a command's block step, but for `BI < N`: in OFB and CTR it does not name `DIR`. -/
theorem inProgress_iff {mode : Mode} {dir : Dir} {s : State} :
    inProgress mode dir s = true ↔ s.mode = mode ∧ ((mode = .ofb ∨ mode = .ctr) ∨ s.dir = dir) := by
  simp only [inProgress, Bool.and_eq_true, Bool.or_eq_true, decide_eq_true_eq, dirFree_iff]

/-- Settles O20: either difference contradicts the enabling condition. -/
theorem otherCommandIsRefused : Obligations.OtherCommandIsRefused := by
  intro i s hb hother
  refine exec_other i s hb (Bool.eq_false_iff.2 fun hp => ?_)
  obtain ⟨hmode, hdir⟩ := inProgress_iff.1 hp
  rcases hother with hne | ⟨hne, hofb, hctr⟩
  · exact hne hmode
  · rcases hdir with (h | h) | h
    · exact hofb (hmode.trans h)
    · exact hctr (hmode.trans h)
    · exact hne h

/-! #### The request and the block step -/

/-- A request gives the Block that its direction answers (R132). -/
theorem prim_eq_ok_iff {p : Platform} {op : PrimOp} {alg : Alg} {key : List Byte} {b y : Block} :
    prim p op alg key b = .ok y ↔ p.answer op alg key b = some y := by
  cases op with
  | enc => simp only [prim, Platform.answer]; cases p.E alg key b <;> simp
  | dec => simp only [prim, Platform.answer]; cases p.D alg key b <;> simp

/-- A request that its direction does not answer raises `CipherPrimitiveError` (R137). -/
theorem prim_of_answer_none {p : Platform} {op : PrimOp} {alg : Alg} {key : List Byte} {b : Block}
    (h : p.answer op alg key b = none) : prim p op alg key b = .error .cipherPrimitiveError := by
  cases hp : prim p op alg key b with
  | error e => rw [prim_error hp]
  | ok y => rw [prim_eq_ok_iff.1 hp] at h; cases h

/-- A block step completes exactly when its request is answered and there is a counter to go on with, and then writes
what the datapath's multiplexers select (R214). -/
theorem blockOf_eq_ok_iff {p : Platform} {mode : Mode} {dir : Dir} {x : BlockIn} {w : BlockOut} :
    blockOf p mode dir x = .ok w ↔
      ∃ y, p.answer (opOf mode dir) x.alg x.key (inputOf mode dir x) = some y ∧
        ctrrOf mode x.ctrr = some w.ctrr ∧ w.out = outputOf mode dir x y ∧ w.cv = cvOf mode dir x y := by
  simp only [← prim_eq_ok_iff, blockOf_eq_datapath, datapath]
  cases prim p (opOf mode dir) x.alg x.key (inputOf mode dir x) with
  | error e => simp
  | ok y =>
    cases ctrrOf mode x.ctrr with
    | none => simp
    | some r =>
      obtain ⟨out, cv, ctrr⟩ := w
      constructor
      · rintro ⟨⟩; exact ⟨y, rfl, rfl, rfl, rfl⟩
      · rintro ⟨_, ⟨⟩, ⟨⟩, rfl, rfl⟩; rfl

/-- A block step whose request is not answered raises (R250). -/
theorem blockOf_of_answer_none {p : Platform} {mode : Mode} {dir : Dir} {x : BlockIn}
    (h : p.answer (opOf mode dir) x.alg x.key (inputOf mode dir x) = none) :
    blockOf p mode dir x = .error (.raises .cipherPrimitiveError) := by
  rw [blockOf_eq_datapath, datapath, prim_of_answer_none h]

/-- At `BI < N` a command of the run takes the dispatched block step (R213). -/
theorem exec_eq_blockStep {i : Instr} {s : State} {mode : Mode} {dir : Dir} (hb : s.st = .busy)
    (hp : inProgress i.command.mode i.command.dir s = true) (hmode : s.mode = mode) (hdir : s.dir = dir)
    (hi : s.bi < s.n) : exec i s = blockStep (blockOf Config.platform mode dir) s := by
  rw [exec_busy i s hb hp, advance, if_pos hi, hmode, hdir]

theorem blockStep_of_ok {f : BlockIn → Except BlockStop BlockOut} {s : State} {m : Block} {w : BlockOut}
    (hm : s.msg[s.bi]? = some m) (hw : f ⟨s.alg, s.keyn, m, s.cv, s.ctrr⟩ = .ok w) :
    blockStep f s = .next (commitBlock w s) := by
  simp only [blockStep, hm, hw]

theorem blockStep_of_raises {f : BlockIn → Except BlockStop BlockOut} {s : State} {m : Block} {e : EngineError}
    (hm : s.msg[s.bi]? = some m) (hw : f ⟨s.alg, s.keyn, m, s.cv, s.ctrr⟩ = .error (.raises e)) :
    blockStep f s = .next (errorEntry e s) := by
  simp only [blockStep, hm, hw]

/-- The block step of ECB in either direction (R150, R151): `OUTB[BI]` is the primitive's answer to `MSG[BI]`, and the
chaining registers stay. -/
theorem exec_ecb_block {i : Instr} {s : State} {m : Block} {dir : Dir}
    (hc : i.command.mode = .ecb ∧ i.command.dir = dir) (hb : s.st = .busy) (hmode : s.mode = .ecb) (hdir : s.dir = dir)
    (hi : s.bi < s.n) (hm : s.msg[s.bi]? = some m) :
    exec i s = .next (match Config.platform.answer (opOf .ecb dir) s.alg s.keyn m with
      | some c => { s with outb := Memory.write s.outb s.bi c, bi := s.bi + 1 }
      | none => { s with out := [], status := 0b0111#4 }) := by
  have hp : inProgress i.command.mode i.command.dir s = true :=
    inProgress_iff.2 ⟨hmode.trans hc.1.symm, .inr (hdir.trans hc.2.symm)⟩
  have hinput : inputOf .ecb dir ⟨s.alg, s.keyn, m, s.cv, s.ctrr⟩ = m := by cases dir <;> rfl
  rw [exec_eq_blockStep hb hp hmode hdir hi]
  cases ha : Config.platform.answer (opOf .ecb dir) s.alg s.keyn m with
  | none => exact blockStep_of_raises hm (blockOf_of_answer_none (hinput.symm ▸ ha))
  | some c =>
    refine blockStep_of_ok (w := ⟨c, s.cv, s.ctrr⟩) hm (blockOf_eq_ok_iff.2 ⟨c, hinput.symm ▸ ha, rfl, ?_⟩)
    cases dir <;> exact ⟨rfl, rfl⟩

/-- Settles O11: the four commands are ECB encryption, whose operation is `ENC`. -/
theorem ecbEncBlockStep : Obligations.EcbEncBlockStep := by
  intro i a s m hcmd hb hmode hdir hi hm
  have hc : i.command.mode = .ecb ∧ i.command.dir = .encrypt := by
    rcases hcmd with rfl | rfl | rfl | rfl <;> exact ⟨rfl, rfl⟩
  exact exec_ecb_block hc hb hmode hdir hi hm

/-- Settles O12: the four commands are ECB decryption, whose operation is `DEC`. -/
theorem ecbDecBlockStep : Obligations.EcbDecBlockStep := by
  intro i a s m hcmd hb hmode hdir hi hm
  have hc : i.command.mode = .ecb ∧ i.command.dir = .decrypt := by
    rcases hcmd with rfl | rfl | rfl | rfl <;> exact ⟨rfl, rfl⟩
  exact exec_ecb_block hc hb hmode hdir hi hm

/-! #### A whole run, block by block

The chaining registers before each block step are given as functions of its index, so that the blocks of a run can be
spoken of one at a time: `cvs i` for `CV`, `ctrs i` for `CTRR`. -/

/-- Block step `i` leaves in `CV` what the next one reads: for the input blocks `ms` and the output blocks `os`. -/
def CvThreads (mode : Mode) (dir : Dir) (ms os : List Block) (cvs : Nat → Block) : Prop :=
  ∀ (i : Nat) (x : BlockIn) (y : Block), ms[i]? = some x.msg → x.cv = cvs i →
    os[i]? = some (outputOf mode dir x y) → cvOf mode dir x y = cvs (i + 1)

theorem CvThreads.tail {mode : Mode} {dir : Dir} {m o : Block} {ms os : List Block} {cvs : Nat → Block}
    (h : CvThreads mode dir (m :: ms) (o :: os) cvs) : CvThreads mode dir ms os fun i => cvs (i + 1) :=
  fun i => h (i + 1)

/-- A run of blocks succeeds exactly when every request is answered; output block `i` is then what the multiplexers make
of input block `i`, the registers before it and the answer (R214, R219). -/
theorem runBlocks_eq_ok_iff {p : Platform} {mode : Mode} {dir : Dir} {alg : Alg} {key : List Byte}
    {ms os : List Block} {cvs ctrs : Nat → Block} (hcv : CvThreads mode dir ms os cvs)
    (hctr : ∀ i, ctrrOf mode (ctrs i) = some (ctrs (i + 1))) :
    runBlocks (blockOf p mode dir) alg key ms (cvs 0) (ctrs 0) = .ok os ↔
      os.length = ms.length ∧ ∀ (i : Nat) (b : Block), ms[i]? = some b →
        ∃ y, p.answer (opOf mode dir) alg key (inputOf mode dir ⟨alg, key, b, cvs i, ctrs i⟩) = some y ∧
          os[i]? = some (outputOf mode dir ⟨alg, key, b, cvs i, ctrs i⟩ y) := by
  induction ms generalizing os cvs ctrs with
  | nil => simp [Laws.runBlocks_nil_ok]
  | cons m ms ih =>
    rw [Laws.runBlocks_cons_ok]
    constructor
    · rintro ⟨⟨o, cv, ctrr⟩, rest, hw, hrest, rfl⟩
      obtain ⟨y, hy, hctrr, rfl, hnext⟩ := blockOf_eq_ok_iff.1 hw
      obtain rfl : cv = cvs 1 := hnext.trans (hcv 0 _ y rfl rfl rfl)
      obtain rfl : ctrs 1 = ctrr := Option.some.inj ((hctr 0).symm.trans hctrr)
      obtain ⟨hlen, hblocks⟩ := (ih hcv.tail fun i => hctr (i + 1)).1 hrest
      refine ⟨congrArg (· + 1) hlen, fun i b hb => ?_⟩
      cases i with
      | zero => cases hb; exact ⟨y, hy, rfl⟩
      | succ i => exact hblocks i b hb
    · rintro ⟨hlen, hblocks⟩
      obtain ⟨y, hy, ho⟩ := hblocks 0 m rfl
      cases os with
      | nil => cases ho
      | cons o rest =>
        cases ho
        refine ⟨⟨_, cvs 1, ctrs 1⟩, rest,
          blockOf_eq_ok_iff.2 ⟨y, hy, hctr 0, rfl, (hcv 0 _ y rfl rfl rfl).symm⟩, ?_, rfl⟩
        exact (ih hcv.tail fun i => hctr (i + 1)).2 ⟨Nat.succ.inj hlen, fun i b hb => hblocks (i + 1) b hb⟩

/-- `CTRR` before block step `i`: CTR has counted to `i`, the other modes leave the counter at zero (R33, R195). -/
def ctrrBefore (mode : Mode) (no : List Byte) (i : Nat) : Block :=
  ctrAt (zext8 (normalize no 4)) (if mode = .ctr then i else 0)

theorem ctrrOf_ctrrBefore (mode : Mode) (no : List Byte) (i : Nat) :
    ctrrOf mode (ctrrBefore mode no i) = some (ctrrBefore mode no (i + 1)) := by
  cases mode with
  | ctr => exact ctrinc_ctrAt _ i
  | _ => rfl

/-- A whole run, block by block: `runBlocks_eq_ok_iff` from the registers that START loads (R211). -/
theorem run_eq_ok_iff {p : Platform} {m k iv no out : List Byte} {mode : Mode} {dir : Dir} {alg : Alg}
    {cvs : List Block → Nat → Block} (hiv : ∀ os, cvs os 0 = zext8 (normalize iv 8))
    (hcv : ∀ os, CvThreads mode dir (split m) os (cvs os)) :
    run p m k iv no ⟨mode, dir, alg⟩ = .ok out ↔
      ∃ os : List Block, os.length = ceil8 m.length ∧ out = join os ∧
        ∀ (i : Nat) (b : Block), (split m)[i]? = some b →
          ∃ y, p.answer (opOf mode dir) alg (normalize k (Config.keyBytes alg))
              (inputOf mode dir ⟨alg, normalize k (Config.keyBytes alg), b, cvs os i, ctrrBefore mode no i⟩) = some y ∧
            os[i]? = some
              (outputOf mode dir ⟨alg, normalize k (Config.keyBytes alg), b, cvs os i, ctrrBefore mode no i⟩ y) := by
  rw [Laws.run_eq_ok]
  refine exists_congr fun os => ?_
  have hctr : ctrAt (zext8 (normalize no 4)) 0 = ctrrBefore mode no 0 := by simp [ctrrBefore]
  rw [← hiv os, hctr, runBlocks_eq_ok_iff (hcv os) (ctrrOf_ctrrBefore mode no), split_length, and_right_comm, and_assoc]

/-! #### A whole run of ECB -/

/-- A run of ECB is the primitive on each block, whatever the IV and the nonce (R150, R151). -/
theorem run_ecb_eq_ok_iff {p : Platform} {m k iv no out : List Byte} {dir : Dir} {alg : Alg} :
    run p m k iv no ⟨.ecb, dir, alg⟩ = .ok out ↔
      ∃ O : List Block, O.length = ceil8 m.length ∧ out = join O ∧
        ∀ (i : Nat) (b : Block), (split m)[i]? = some b → ∃ o, O[i]? = some o ∧
          (if dir = .encrypt then p.E else p.D) alg (normalize k (Config.keyBytes alg)) b = some o := by
  have hcv (os : List Block) : CvThreads .ecb dir (split m) os fun _ => zext8 (normalize iv 8) := by
    intro i x y _ hx _
    cases dir <;> exact hx
  rw [run_eq_ok_iff (cvs := fun _ _ => zext8 (normalize iv 8)) (fun _ => rfl) hcv]
  refine exists_congr fun O => and_congr_right' <| and_congr_right' <|
    forall₃_congr fun i b _ => exists_congr fun o => ?_
  cases dir <;> exact and_comm

/-- Settles O51: the blocks of the run by `run_ecb_eq_ok_iff`; equal blocks put the same request. -/
theorem ecbWholeRun : Obligations.EcbWholeRun := by
  intro p m k iv no out dir alg
  refine ⟨run_ecb_eq_ok_iff, fun hrun i j hi _ hij => ?_⟩
  obtain ⟨O, -, rfl, hblocks⟩ := run_ecb_eq_ok_iff.1 hrun
  obtain ⟨b, hb⟩ : ∃ b, (split m)[i]? = some b := ⟨_, List.getElem?_eq_getElem (by rwa [split_length])⟩
  obtain ⟨o, ho, hprim⟩ := hblocks i b hb
  obtain ⟨o', ho', hprim'⟩ := hblocks j b (hij ▸ hb)
  rw [split_join_self, ho, ho', ← hprim, hprim']

/-! #### Locality of decryption -/

/-- `CV` before block step `i` of a decryption in ECB, CBC or CFB: CBC and CFB read the ciphertext block before it, the
IV where there is none; ECB leaves what START loaded (R151, R162, R172). -/
def decryptCv (mode : Mode) (iv : Block) (ms : List Block) (i : Nat) : Block :=
  if mode = .ecb ∨ i = 0 then iv else ms.getD (i - 1) Block.zero

theorem cvThreads_decryptCv {mode : Mode} (hmode : mode = .ecb ∨ mode = .cbc ∨ mode = .cfb) (iv : Block)
    (ms os : List Block) : CvThreads mode .decrypt ms os (decryptCv mode iv ms) := by
  intro i x y hmsg hcv _
  have hnext : ms.getD i Block.zero = x.msg := by rw [List.getD_eq_getElem?_getD, hmsg, Option.getD_some]
  rcases hmode with rfl | rfl | rfl
  · exact hcv
  · exact hnext.symm
  · exact hnext.symm

/-- Messages that agree in the block before `i` agree in what decryption of block `i` finds in `CV`. -/
theorem decryptCv_congr {mode : Mode} {ms ms' : List Block} {i : Nat} (iv : Block)
    (h : mode = .ecb ∨ i = 0 ∨ ms[i - 1]? = ms'[i - 1]?) : decryptCv mode iv ms i = decryptCv mode iv ms' i := by
  unfold decryptCv
  split
  next => rfl
  next hn =>
    obtain ⟨hecb, hzero⟩ := not_or.1 hn
    rw [List.getD_eq_getElem?_getD, List.getD_eq_getElem?_getD, (h.resolve_left hecb).resolve_left hzero]

/-- Settles O58: block `j` is made of ciphertext block `j` and of `CV`, which `decryptCv` gives; in the two runs both
agree, so the request is the same, and so is its answer. -/
theorem decryptionIsLocal : Obligations.DecryptionIsLocal := by
  intro p m1 m2 k iv no o1 o2 mode alg j hmode hrun1 hrun2 hj hprev
  have hcv (m : List Byte) (os : List Block) := cvThreads_decryptCv hmode (zext8 (normalize iv 8)) (split m) os
  have hiv (m : List Byte) (_ : List Block) :
      decryptCv mode (zext8 (normalize iv 8)) (split m) 0 = zext8 (normalize iv 8) := if_pos (.inr rfl)
  obtain ⟨O1, hlen1, rfl, hblocks1⟩ := (run_eq_ok_iff (hiv m1) (hcv m1)).1 hrun1
  obtain ⟨O2, hlen2, rfl, hblocks2⟩ := (run_eq_ok_iff (hiv m2) (hcv m2)).1 hrun2
  rw [split_join_self, split_join_self]
  cases hb : (split m1)[j]? with
  | none =>
    have hb2 := hj ▸ hb
    rw [List.getElem?_eq_none_iff, split_length] at hb hb2
    rw [List.getElem?_eq_none (by rwa [hlen1]), List.getElem?_eq_none (by rwa [hlen2])]
  | some b =>
    obtain ⟨y1, hy1, hO1⟩ := hblocks1 j b hb
    obtain ⟨y2, hy2, hO2⟩ := hblocks2 j b (hj ▸ hb)
    rw [decryptCv_congr _ hprev] at hy1 hO1
    obtain rfl : y1 = y2 := Option.some.inj (hy1.symm.trans hy2)
    rw [hO1, hO2]

end Machine

end Sys2Proof

/-! ### Family `43_cbc.md`: what the chaining registers hold, and the two modes that feed the ciphertext back -/

namespace Sys2Proof.Machine

open Sys2Proof

/-! #### The update of `CV` in CBC and CFB -/

/-- Encrypting, CBC and CFB go on with the block they have just written (R160, R170). -/
theorem cvOf_encrypt {mode : Mode} (hmode : mode = .cbc ∨ mode = .cfb) (x : BlockIn) (y : Block) :
    cvOf mode .encrypt x y = outputOf mode .encrypt x y := by
  rcases hmode with rfl | rfl <;> rfl

/-- Decrypting, CBC and CFB go on with the block they have just consumed (R161, R171). -/
theorem cvOf_decrypt {mode : Mode} (hmode : mode = .cbc ∨ mode = .cfb) (x : BlockIn) (y : Block) :
    cvOf mode .decrypt x y = x.msg := by
  rcases hmode with rfl | rfl <;> rfl

/-! #### What the chaining registers hold between steps -/

/-- START loads the IV and the counter zero, at `BI = 0` (R211). -/
theorem State.Chained.of_start (c : Command) (s : State) : (start c s).Chained where
  cipherBlock _ _ := rfl
  seed _ _ := rfl
  unusedCv _ _ := rfl
  counter _ _ := operandCtrr_eq s
  unusedCounter _ _ := operandCtrr_eq s

/-- A completed block step moves `BI` on, and `CV` and the counter with it (R162, R172, R182, R195). -/
theorem State.Chained.of_commitBlock {s : State} (h : s.Chained) (hb : s.st = .busy) {m : Block} {w : BlockOut}
    (hm : s.msg[s.bi]? = some m)
    (hw : blockOf Config.platform s.mode s.dir ⟨s.alg, s.keyn, m, s.cv, s.ctrr⟩ = .ok w) :
    (commitBlock w s).Chained := by
  have hactive : s.st ≠ .idle := by simp [hb]
  obtain ⟨y, -, hout, hcv, hctrr⟩ := blockOf_ok hw
  refine ⟨fun _ (hmode : s.mode = .cbc ∨ s.mode = .cfb) => ?cipherBlock, fun _ (hmode : s.mode = .ofb) => ?seed,
    fun _ hmode => ?unusedCv, fun _ (hmode : s.mode = .ctr) => ?counter, fun _ hmode => ?unusedCounter⟩
  case cipherBlock =>
    simp only [commitBlock_cv, commitBlock_bi, commitBlock_dir, commitBlock_outb, commitBlock_msg, Nat.succ_ne_zero,
      if_false, Nat.add_sub_cancel, Memory.read_write_same, hm]
    cases hdir : s.dir with
    | encrypt => rw [hcv, hout, hdir, cvOf_encrypt hmode]
    | decrypt => rw [hcv, hdir, cvOf_decrypt hmode]
  case seed =>
    rw [commitBlock_bi, if_neg (Nat.succ_ne_zero _)]
    refine ⟨m, hm, ?_⟩
    rw [commitBlock_outb, Nat.add_sub_cancel, Memory.read_write_same, commitBlock_cv, hcv, hout, hmode]
    cases s.dir <;> rfl
  case unusedCv => exact (blockOf_ok_cv hw hmode).trans (h.unusedCv hactive hmode)
  case counter =>
    rw [if_pos hmode, h.counter hactive hmode, ctrinc_ctrAt] at hctrr
    rw [commitBlock_ctrr, commitBlock_bi, ← Option.some.inj hctrr, ctrAt_ctrAt]
  case unusedCounter =>
    rw [commitBlock_ctrr, blockOf_ok_ctrr hw hmode]
    exact h.unusedCounter hactive hmode

/-- How a run ends, done or in error, is no part of it. -/
theorem State.Chained.of_end {s : State} (h : s.Chained) (hb : s.st = .busy) (o : List Byte) (w : BitVec 4) :
    State.Chained { s with out := o, status := w } :=
  have hactive : s.st ≠ .idle := by simp [hb]
  { cipherBlock := fun _ => h.cipherBlock hactive
    seed := fun _ => h.seed hactive
    unusedCv := fun _ => h.unusedCv hactive
    counter := fun _ => h.counter hactive
    unusedCounter := fun _ => h.unusedCounter hactive }

/-- It speaks of the run only. -/
theorem State.Chained.of_sameRun {s t : State} (h : s.Chained) (hs : SameRun s t) : t.Chained := by
  rw [← hs.withHostSide_eq]
  exact ⟨h.cipherBlock, h.seed, h.unusedCv, h.counter, h.unusedCounter⟩

/-- Every engine step keeps it. -/
theorem EngineStep.keeps_chained {s t : State} (hs : EngineStep s t) (h : s.Chained) : t.Chained := by
  cases hs with
  | block hb _ m w hm hw ht => subst ht; exact h.of_commitBlock hb hm hw
  | raises hb _ _ _ _ ht => subst ht; exact h.of_end hb _ _
  | finish hb _ _ _ ht => subst ht; exact h.of_end hb _ _
  | idle _ ht => subst ht; exact h

/-- Settles O32, by the cases of a step: the engine's move, START, Reset, or a host operation that leaves the run. -/
theorem everyStepKeepsChaining : Obligations.EveryStepKeepsChaining := by
  intro s t _ h hstep
  have hrest (rest : List Move) : State.Chained { s with agenda := rest } := h.of_sameRun (sameRun_agenda s rest)
  cases step_next hstep with
  | engineLast _ hs => exact hs.keeps_chained h
  | engineNext rest _ hs => exact hs.keeps_chained (hrest rest)
  | writeBuf rest x b _ ht => subst ht; exact (hrest rest).of_sameRun (sameRun_writeBuf _ x b _)
  | writeCmd rest c _ ht => subst ht; exact (hrest rest).of_sameRun (sameRun_writeCmd _ c)
  | start rest _ _ ht => subst ht; exact .of_start _ _
  | startIgnored rest _ _ ht => subst ht; exact (hrest rest).of_sameRun (sameRun_answer _ _)
  | readStatus rest _ ht => subst ht; exact (hrest rest).of_sameRun (sameRun_answer _ _)
  | readOut rest _ ht => subst ht; exact (hrest rest).of_sameRun (sameRun_answer _ _)
  | reset rest _ ht => subst ht; exact reset_chained.of_sameRun (sameRun_agenda _ rest)

/-! #### The block step of CBC -/

/-- The block step of a mode without a counter, in a run of its own: what the multiplexers make of the primitive's
answer, or the error entry (R214, R250). -/
theorem exec_block_of_ne_ctr {i : Instr} {s : State} {m : Block} {mode : Mode} {dir : Dir} (hctr : mode ≠ .ctr)
    (hb : s.st = .busy) (hp : inProgress i.command.mode i.command.dir s = true) (hmode : s.mode = mode)
    (hdir : s.dir = dir) (hi : s.bi < s.n) (hm : s.msg[s.bi]? = some m) :
    exec i s = .next (match Config.platform.answer (opOf mode dir) s.alg s.keyn
        (inputOf mode dir ⟨s.alg, s.keyn, m, s.cv, s.ctrr⟩) with
      | some y => commitBlock ⟨outputOf mode dir ⟨s.alg, s.keyn, m, s.cv, s.ctrr⟩ y,
          cvOf mode dir ⟨s.alg, s.keyn, m, s.cv, s.ctrr⟩ y, s.ctrr⟩ s
      | none => errorEntry .cipherPrimitiveError s) := by
  have hkeep : ctrrOf mode s.ctrr = some s.ctrr := by
    cases mode with
    | ctr => exact absurd rfl hctr
    | _ => rfl
  rw [exec_eq_blockStep hb hp hmode hdir hi]
  split
  next y hy => exact blockStep_of_ok hm (blockOf_eq_ok_iff.2 ⟨y, hy, hkeep, rfl, rfl⟩)
  next hn => exact blockStep_of_raises hm (blockOf_of_answer_none hn)

/-- Settles O13: the datapath's selections for CBC encryption. -/
theorem cbcEncBlockStep : Obligations.CbcEncBlockStep := by
  intro a s m hb hmode hdir
  have hp : inProgress .cbc .encrypt s = true := inProgress_iff.2 ⟨hmode, .inr hdir⟩
  exact exec_block_of_ne_ctr (i := .cbcEnc a) (by decide) hb hp hmode hdir

/-- Settles O14: the datapath's selections for CBC decryption. -/
theorem cbcDecBlockStep : Obligations.CbcDecBlockStep := by
  intro a s m hb hmode hdir
  have hp : inProgress .cbc .decrypt s = true := inProgress_iff.2 ⟨hmode, .inr hdir⟩
  exact exec_block_of_ne_ctr (i := .cbcDec a) (by decide) hb hp hmode hdir

/-! #### A whole run of CBC -/

/-- The block before block `i`, with the IV before block 0: `C[i-1]`, where `C[-1] = IVN` (R160, R170). -/
def prevBlock (iv : Block) (bs : List Block) (i : Nat) : Block :=
  if i = 0 then iv else bs.getD (i - 1) Block.zero

@[simp] theorem prevBlock_zero (iv : Block) (bs : List Block) : prevBlock iv bs 0 = iv := rfl

theorem prevBlock_succ_of_getElem? {bs : List Block} {i : Nat} {b : Block} (h : bs[i]? = some b) (iv : Block) :
    prevBlock iv bs (i + 1) = b := by
  rw [prevBlock, if_neg (Nat.succ_ne_zero i), Nat.add_sub_cancel, List.getD_eq_getElem?_getD, h, Option.getD_some]

/-- Encrypting, CBC and CFB find the output block before it in `CV`. -/
theorem cvThreads_encrypt {mode : Mode} (hmode : mode = .cbc ∨ mode = .cfb) (iv : Block) (ms os : List Block) :
    CvThreads mode .encrypt ms os (prevBlock iv os) := by
  intro i x y _ _ hout
  rw [cvOf_encrypt hmode, prevBlock_succ_of_getElem? hout]

theorem decryptCv_eq_prevBlock {mode : Mode} (hmode : mode = .cbc ∨ mode = .cfb) (iv : Block) (ms : List Block) :
    decryptCv mode iv ms = prevBlock iv ms := by
  funext i
  rcases hmode with rfl | rfl <;> simp [decryptCv, prevBlock]

/-- Decrypting, CBC and CFB find the input block before it in `CV`. -/
theorem cvThreads_decrypt {mode : Mode} (hmode : mode = .cbc ∨ mode = .cfb) (iv : Block) (ms os : List Block) :
    CvThreads mode .decrypt ms os (prevBlock iv ms) :=
  decryptCv_eq_prevBlock hmode iv ms ▸ cvThreads_decryptCv (.inr hmode) iv ms os

/-- Settles O52: each block of the run, with the ciphertext block before it in `CV`. -/
theorem cbcWholeRun : Obligations.CbcWholeRun := by
  intro p m k iv no out alg
  have hiv (bs : List Block) := prevBlock_zero (zext8 (normalize iv 8)) bs
  constructor
  · rw [run_eq_ok_iff hiv (cvThreads_encrypt (.inl rfl) _ (split m))]
    exact exists_congr fun C => and_congr_right' <| and_congr_right' <|
      forall₃_congr fun i b _ => exists_congr fun c => and_comm
  · exact run_eq_ok_iff (fun _ => hiv (split m)) (cvThreads_decrypt (.inl rfl) _ (split m))

/-! #### A changed block in CBC and CFB encryption -/

theorem xorBlock_left_inj {a b c : Block} : xorBlock a c = xorBlock b c ↔ a = b :=
  ⟨fun h => by rw [← xorBlock_cancel a c, h, xorBlock_cancel], fun h => h ▸ rfl⟩

theorem xorBlock_right_inj {a b c : Block} : xorBlock c a = xorBlock c b ↔ a = b := by
  rw [xorBlock_comm c a, xorBlock_comm c b, xorBlock_left_inj]

/-- Under `PRIM_INJECTIVE` two requests have the same answer exactly when they are the same. -/
theorem answer_eq_iff {p : Platform} (hp : p.Injective) {alg : Alg} {key : List Byte}
    (hkey : key.length = Config.keyBytes alg) {b b' y y' : Block} (hy : p.E alg key b = some y)
    (hy' : p.E alg key b' = some y') : y = y' ↔ b = b' := by
  constructor
  · rintro rfl; exact hp alg key b b' y hkey hy hy'
  · rintro rfl; exact Option.some.inj (hy.symm.trans hy')

/-- Two block steps of CBC or CFB encryption that differ in the plaintext block alone, or in `CV` alone, write different
blocks. -/
theorem outputOf_encrypt_eq_iff {p : Platform} (hp : p.Injective) {mode : Mode} (hmode : mode = .cbc ∨ mode = .cfb)
    {alg : Alg} {key : List Byte} (hkey : key.length = Config.keyBytes alg) {m m' cv cv' ctrr y y' : Block}
    (hy : p.answer (opOf mode .encrypt) alg key (inputOf mode .encrypt ⟨alg, key, m, cv, ctrr⟩) = some y)
    (hy' : p.answer (opOf mode .encrypt) alg key (inputOf mode .encrypt ⟨alg, key, m', cv', ctrr⟩) = some y')
    (hone : cv = cv' ∨ m = m') :
    outputOf mode .encrypt ⟨alg, key, m, cv, ctrr⟩ y = outputOf mode .encrypt ⟨alg, key, m', cv', ctrr⟩ y' ↔
      cv = cv' ∧ m = m' := by
  rcases hmode with rfl | rfl
  · have hans : y = y' ↔ xorBlock m cv = xorBlock m' cv' := answer_eq_iff hp hkey hy hy'
    rcases hone with rfl | rfl
    · simp only [outputOf, hans, xorBlock_left_inj, true_and]
    · simp only [outputOf, hans, xorBlock_right_inj, and_true]
  · have hans : y = y' ↔ cv = cv' := answer_eq_iff hp hkey hy hy'
    rcases hone with rfl | rfl
    · simp only [outputOf, hans.2 rfl, xorBlock_left_inj, true_and]
    · simp only [outputOf, xorBlock_right_inj, hans, and_true]

/-- Settles O59, by induction on the block: up to block `i` both runs find the same `CV`, and from there on different
ones; block `i` is where the plaintexts differ, so each block step differs in at most one of the two. -/
theorem changedBlockSpreads : Obligations.ChangedBlockSpreads := by
  intro p m1 m2 k iv no o1 o2 mode alg i hp hmode hrun1 hrun2 hlen hdiff j hj
  have hkey : (normalize k (Config.keyBytes alg)).length = Config.keyBytes alg := normalize_length _ _
  have hiv (bs : List Block) := prevBlock_zero (zext8 (normalize iv 8)) bs
  have hcv (m : List Byte) := cvThreads_encrypt hmode (zext8 (normalize iv 8)) (split m)
  obtain ⟨C1, -, rfl, hblocks1⟩ := (run_eq_ok_iff hiv (hcv m1)).1 hrun1
  obtain ⟨C2, -, rfl, hblocks2⟩ := (run_eq_ok_iff hiv (hcv m2)).1 hrun2
  have hstep {j : Nat} (hj : j < (split m1).length)
      (hprev : prevBlock (zext8 (normalize iv 8)) C1 j = prevBlock (zext8 (normalize iv 8)) C2 j ↔ j ≤ i) :
      ∃ c1 c2, C1[j]? = some c1 ∧ C2[j]? = some c2 ∧ (c1 = c2 ↔ j < i) := by
    obtain ⟨b1, hb1⟩ : ∃ b, (split m1)[j]? = some b := ⟨_, List.getElem?_eq_getElem hj⟩
    obtain ⟨b2, hb2⟩ : ∃ b, (split m2)[j]? = some b := ⟨_, List.getElem?_eq_getElem (hlen ▸ hj)⟩
    obtain ⟨y1, hy1, hc1⟩ := hblocks1 j b1 hb1
    obtain ⟨y2, hy2, hc2⟩ := hblocks2 j b2 hb2
    have hmsg : b1 = b2 ↔ j ≠ i := by rw [Ne, ← hdiff j, hb1, hb2, not_ne_iff, Option.some.injEq]
    refine ⟨_, _, hc1, hc2, ?_⟩
    rw [outputOf_encrypt_eq_iff hp hmode hkey hy1 hy2 (by rw [hprev, hmsg]; omega), hprev, hmsg]
    omega
  obtain ⟨c1, c2, hc1, hc2, heq⟩ : ∃ c1 c2, C1[j]? = some c1 ∧ C2[j]? = some c2 ∧ (c1 = c2 ↔ j < i) := by
    induction j with
    | zero => exact hstep hj (iff_of_true rfl (Nat.zero_le i))
    | succ j ih =>
      obtain ⟨c1, c2, hc1, hc2, heq⟩ := ih (Nat.lt_of_succ_lt hj)
      refine hstep hj ?_
      rw [prevBlock_succ_of_getElem? hc1, prevBlock_succ_of_getElem? hc2, heq, Nat.lt_iff_add_one_le]
  rw [split_join_self, split_join_self, hc1, hc2, Option.some.injEq, heq]

end Sys2Proof.Machine

/-! ### Family `44_cfb.md`: the block step of CFB and a whole run of it -/

namespace Sys2Proof.Machine

open Sys2Proof

/-! #### The block step of CFB -/

/-- Settles O15: the datapath's selections for CFB encryption. -/
theorem cfbEncBlockStep : Obligations.CfbEncBlockStep := by
  intro a s m hb hmode hdir
  have hp : inProgress .cfb .encrypt s = true := inProgress_iff.2 ⟨hmode, .inr hdir⟩
  exact exec_block_of_ne_ctr (i := .cfbEnc a) (by decide) hb hp hmode hdir

/-- Settles O16: the datapath's selections for CFB decryption, whose operation is `ENC`. -/
theorem cfbDecBlockStep : Obligations.CfbDecBlockStep := by
  intro a s m hb hmode hdir
  have hp : inProgress .cfb .decrypt s = true := inProgress_iff.2 ⟨hmode, .inr hdir⟩
  exact exec_block_of_ne_ctr (i := .cfbDec a) (by decide) hb hp hmode hdir

/-! #### A whole run of CFB -/

/-- Settles O53: each block of the run, with the ciphertext block before it in `CV`: the output block in encryption, the
input block in decryption. -/
theorem cfbWholeRun : Obligations.CfbWholeRun := by
  intro p m k iv no out alg
  have hiv (bs : List Block) := prevBlock_zero (zext8 (normalize iv 8)) bs
  constructor
  · exact run_eq_ok_iff hiv (cvThreads_encrypt (.inr rfl) _ (split m))
  · exact run_eq_ok_iff (fun _ => hiv (split m)) (cvThreads_decrypt (.inr rfl) _ (split m))

end Sys2Proof.Machine

/-! ### Family `45_ofb.md`: the modes that mask the message with a key stream, and OFB among them -/

namespace Sys2Proof.Machine

open Sys2Proof

/-! #### One procedure for both directions -/

/-- OFB and CTR have one block step for both directions (R180, R181, R190, R191). -/
theorem blockOf_of_stream {mode : Mode} (hmode : mode = .ofb ∨ mode = .ctr) (p : Platform) (dir : Dir) :
    blockOf p mode dir = blockOf p mode .encrypt := by
  rcases hmode with rfl | rfl <;> cases dir <;> rfl

/-- A run of OFB or CTR is the same in both directions. -/
theorem run_of_stream {mode : Mode} (hmode : mode = .ofb ∨ mode = .ctr) (p : Platform) (m k iv no : List Byte)
    (dir : Dir) (alg : Alg) : run p m k iv no ⟨mode, dir, alg⟩ = run p m k iv no ⟨mode, .encrypt, alg⟩ := by
  simp only [run, blockOf_of_stream hmode p dir]

/-! #### The block step of OFB -/

@[simp] theorem opOf_ofb (dir : Dir) : opOf .ofb dir = .enc := by cases dir <;> rfl

@[simp] theorem inputOf_ofb (dir : Dir) (x : BlockIn) : inputOf .ofb dir x = x.cv := by cases dir <;> rfl

@[simp] theorem outputOf_ofb (dir : Dir) (x : BlockIn) (y : Block) : outputOf .ofb dir x y = xorBlock x.msg y := by
  cases dir <;> rfl

@[simp] theorem cvOf_ofb (dir : Dir) (x : BlockIn) (y : Block) : cvOf .ofb dir x y = y := by cases dir <;> rfl

/-- Settles O17: either command is in progress whatever `DIR` latches, and the datapath's selections for OFB are the same
in both directions. -/
theorem ofbBlockStep : Obligations.OfbBlockStep := by
  intro i a s m hcmd hb hmode hi hm
  have hp : inProgress i.command.mode i.command.dir s = true := by
    rcases hcmd with rfl | rfl <;> exact inProgress_iff.2 ⟨hmode, .inl (.inl rfl)⟩
  rw [exec_block_of_ne_ctr (by decide) hb hp hmode rfl hi hm]
  simp only [opOf_ofb, inputOf_ofb, outputOf_ofb, cvOf_ofb]
  rfl

/-! #### A whole run of OFB -/

/-- The seeds of a run of OFB, read back from its input and output blocks: what masks the one to give the other. -/
def seeds (ms os : List Block) : List Block := List.zipWith xorBlock ms os

theorem xorBlock_cancel_left (a b : Block) : xorBlock a (xorBlock a b) = b := by
  rw [xorBlock_comm, xorBlock_comm a, xorBlock_cancel]

theorem seeds_getElem? {ms os : List Block} {i : Nat} {b s : Block} (hb : ms[i]? = some b)
    (ho : os[i]? = some (xorBlock b s)) : (seeds ms os)[i]? = some s := by
  simp only [seeds, List.getElem?_zipWith, hb, ho, xorBlock_cancel_left]

theorem seeds_length {ms os : List Block} (h : os.length = ms.length) : (seeds ms os).length = ms.length := by
  rw [seeds, List.length_zipWith, h, Nat.min_self]

/-- Blocks that mask each input block to its output block are the seeds. -/
theorem seeds_eq {ms os ss : List Block} (ho : os.length = ms.length) (hs : ss.length = ms.length)
    (h : ∀ (i : Nat) (b : Block), ms[i]? = some b → ∃ s, ss[i]? = some s ∧ os[i]? = some (xorBlock b s)) :
    seeds ms os = ss := by
  refine List.ext_getElem ((seeds_length ho).trans hs.symm) fun i _ hi => ?_
  have hb : ms[i]? = some ms[i] := List.getElem?_eq_getElem (hs ▸ hi)
  obtain ⟨s, hss, hos⟩ := h i _ hb
  rw [List.getElem_eq_iff, seeds_getElem? hb hos, ← hss, List.getElem?_eq_getElem hi]

/-- OFB finds the seed of the block before it in `CV`, the IV before block 0 (R182). -/
theorem cvThreads_ofb (iv : Block) (ms os : List Block) :
    CvThreads .ofb .encrypt ms os (prevBlock iv (seeds ms os)) := fun _ _ _ hmsg _ hout =>
  (prevBlock_succ_of_getElem? (seeds_getElem? hmsg hout) iv).symm

/-- Settles O54: each block of the run, with the seed before it in `CV`; the list `S` can only be that of the seeds. -/
theorem ofbWholeRun : Obligations.OfbWholeRun := by
  intro p m k iv no out dir alg
  have hiv (os : List Block) := prevBlock_zero (zext8 (normalize iv 8)) (seeds (split m) os)
  rw [run_of_stream (.inl rfl), run_eq_ok_iff hiv (cvThreads_ofb _ (split m))]
  constructor
  · rintro ⟨O, hO, hout, hblocks⟩
    have hS : (seeds (split m) O).length = ceil8 m.length := by rw [seeds_length (by simpa), split_length]
    refine ⟨O, seeds (split m) O, hO, hS, hout, fun i b hb => ?_⟩
    obtain ⟨s, hs, ho⟩ := hblocks i b hb
    exact ⟨s, seeds_getElem? hb ho, hs, ho⟩
  · rintro ⟨O, S, hO, hS, hout, hblocks⟩
    obtain rfl : seeds (split m) O = S := seeds_eq (by simpa) (by simpa) fun i b hb =>
      (hblocks i b hb).imp fun _ ⟨hs, _, ho⟩ => ⟨hs, ho⟩
    exact ⟨O, hO, hout, fun i b hb => (hblocks i b hb).imp fun _ ⟨_, hs, ho⟩ => ⟨hs, ho⟩⟩

/-! #### What the key stream does to a difference -/

/-- Masked with the same block, two blocks differ as they did. -/
theorem xorBlock_mask (a b s : Block) : xorBlock (xorBlock a s) (xorBlock b s) = xorBlock a b := by
  rw [xorBlock_comm b s, ← xorBlock_assoc, xorBlock_cancel]

/-- Two block steps of OFB or CTR that find the same chaining registers put the same request, which the message has no
part in: the output blocks differ as the input blocks do, and the registers go on the same. -/
theorem blockOf_stream_xor {p : Platform} {mode : Mode} (hmode : mode = .ofb ∨ mode = .ctr) {alg : Alg}
    {key : List Byte} {m1 m2 cv ctrr : Block} {w1 w2 : BlockOut}
    (h1 : blockOf p mode .encrypt ⟨alg, key, m1, cv, ctrr⟩ = .ok w1)
    (h2 : blockOf p mode .encrypt ⟨alg, key, m2, cv, ctrr⟩ = .ok w2) :
    xorBlock w1.out w2.out = xorBlock m1 m2 ∧ w1.cv = w2.cv ∧ w1.ctrr = w2.ctrr := by
  obtain ⟨y1, hy1, hctrr1, hout1, hcv1⟩ := blockOf_eq_ok_iff.1 h1
  obtain ⟨y2, hy2, hctrr2, hout2, hcv2⟩ := blockOf_eq_ok_iff.1 h2
  have hinput : inputOf mode .encrypt ⟨alg, key, m1, cv, ctrr⟩ = inputOf mode .encrypt ⟨alg, key, m2, cv, ctrr⟩ := by
    rcases hmode with rfl | rfl <;> rfl
  obtain rfl : y1 = y2 := Option.some.inj (hy1.symm.trans (hinput ▸ hy2))
  refine ⟨?_, ?_, Option.some.inj (hctrr1.symm.trans hctrr2)⟩
  · rw [hout1, hout2]
    rcases hmode with rfl | rfl <;> exact xorBlock_mask m1 m2 y1
  · rw [hcv1, hcv2]
    rcases hmode with rfl | rfl <;> rfl

/-- Two runs of blocks that begin with the same chaining registers keep the difference of their input blocks. -/
theorem runBlocks_stream_xor {p : Platform} {mode : Mode} (hmode : mode = .ofb ∨ mode = .ctr) {alg : Alg}
    {key : List Byte} {ms1 ms2 os1 os2 : List Block} {cv ctrr : Block}
    (h1 : runBlocks (blockOf p mode .encrypt) alg key ms1 cv ctrr = .ok os1)
    (h2 : runBlocks (blockOf p mode .encrypt) alg key ms2 cv ctrr = .ok os2) :
    List.zipWith xorBlock os1 os2 = List.zipWith xorBlock ms1 ms2 := by
  induction ms1 generalizing ms2 os1 os2 cv ctrr with
  | nil => rw [Laws.runBlocks_nil_ok.1 h1, List.zipWith_nil_left, List.zipWith_nil_left]
  | cons m1 ms1 ih =>
    cases ms2 with
    | nil => rw [Laws.runBlocks_nil_ok.1 h2, List.zipWith_nil_right, List.zipWith_nil_right]
    | cons m2 ms2 =>
      obtain ⟨w1, rest1, hw1, hrest1, rfl⟩ := Laws.runBlocks_cons_ok.1 h1
      obtain ⟨w2, rest2, hw2, hrest2, rfl⟩ := Laws.runBlocks_cons_ok.1 h2
      obtain ⟨hout, hcv, hctrr⟩ := blockOf_stream_xor hmode hw1 hw2
      rw [hcv, hctrr] at hrest1
      rw [List.zipWith_cons_cons, List.zipWith_cons_cons, hout, ih hrest1 hrest2]

/-- XOR byte by byte of two joins is the join of the XOR block by block. -/
theorem zipWith_xor_join (M N : List Block) :
    List.zipWith (fun x y => x ^^^ y) (join M) (join N) = join (List.zipWith xorBlock M N) := by
  induction M generalizing N with
  | nil => rfl
  | cons a M ih =>
    cases N with
    | nil => exact List.zipWith_nil_right
    | cons b N =>
      rw [List.zipWith_cons_cons, join_cons, join_cons, join_cons, List.zipWith_append (by simp), ← xorBlock_bytes, ih]

/-- Settles O57: the blocks keep their difference, and bytes are the join of blocks on both sides; with different block
counts it would hold as far as the shorter message reaches. -/
theorem streamModesKeepDifferences : Obligations.StreamModesKeepDifferences := by
  intro p m1 m2 k iv no o1 o2 mode d1 d2 alg hmode _ hrun1 hrun2
  rw [run_of_stream hmode] at hrun1 hrun2
  obtain ⟨O1, hO1, rfl⟩ := Laws.run_eq_ok.1 hrun1
  obtain ⟨O2, hO2, rfl⟩ := Laws.run_eq_ok.1 hrun2
  rw [← join_split_eq_pad, ← join_split_eq_pad, zipWith_xor_join, zipWith_xor_join, runBlocks_stream_xor hmode hO1 hO2]

end Sys2Proof.Machine

/-! ### Family `46_ctr.md`: the counter, the nonce half, the block step of CTR and a whole run of it -/

namespace Sys2Proof.Machine

open Sys2Proof

/-! #### The counter -/

/-- A register in range is `ctr128` of its value, and an increment counts that value one on (R192). -/
theorem ctrinc_of_inRange {r : Block} (h : counterInRange r = true) :
    ctrinc r = some (ctrAt r (r.counterValue + 1)) := by
  have hstep := ctrinc_ctrAt r r.counterValue
  rwa [ctrAt_counterValue r h] at hstep

theorem ctrinc_of_outOfRange {r : Block} (h : counterInRange r = false) : ctrinc r = none := by
  rw [ctrinc, h, if_neg Bool.false_ne_true]

/-- The four digits hold `t` modulo `128^4` (R193, R194). -/
theorem ctrAt_mod (r : Block) (t : Nat) : ctrAt r (t % 128 ^ 4) = ctrAt r t := by
  simp only [ctrAt]
  congr 2 <;> omega

/-- Settles O42: the register is `ctr128` of its value, which the increment counts one on. -/
theorem counterIncrementAddsOne : Obligations.CounterIncrementAddsOne := fun r h =>
  ⟨_, ctrinc_of_inRange h, ctrAt_inRange r _, ctrAt_nonceHalf r _, counterValue_ctrAt r _⟩

/-- Settles O43, by induction on the number of increments; the examples are digits of closed numbers. -/
theorem counterClosedForm : Obligations.CounterClosedForm := by
  refine ⟨fun r t => ?_, fun _ => rfl, fun _ => ⟨rfl, rfl, rfl, rfl, rfl, rfl, rfl, rfl⟩⟩
  rw [ctrAt_mod]
  induction t with
  | zero => rfl
  | succ t ih => simp only [ih, Option.bind_some, ctrinc_ctrAt]

/-! #### The nonce half -/

/-- An engine step leaves the nonce half (R192 a): a completed block step writes the counter half at most, and no other
step writes `CTRR`. -/
theorem EngineStep.nonceHalf_kept {s t : State} (h : EngineStep s t) : t.ctrr.nonceHalf = s.ctrr.nonceHalf := by
  cases h with
  | block _ _ _ _ _ hw ht => subst ht; exact (blockOf_ok_counter hw).1
  | raises _ _ _ _ _ ht => subst ht; rfl
  | finish _ _ _ _ ht => subst ht; rfl
  | idle _ ht => subst ht; rfl

/-- A step other than a `Reset`, and other than a `Start` that is not ignored, leaves the nonce half. -/
theorem step_nonceHalf_kept {s t : State} (h : step s = .next t) (hreset : s.agenda.head? ≠ some (.host .reset))
    (hstart : s.agenda.head? = some (.host .start) → s.st = .busy) : t.ctrr.nonceHalf = s.ctrr.nonceHalf := by
  cases ha : s.agenda with
  | nil => exact (engineMove_next ((Laws.step_of_agenda_nil ha).symm.trans h)).nonceHalf_kept
  | cons move rest =>
    cases move with
    | engine => exact (engineMove_next ((step_engine ha).symm.trans h)).nonceHalf_kept
    | host op =>
      have hhead : s.agenda.head? = some (.host op) := by rw [ha, List.head?_cons]
      obtain ⟨u, hu, hrun, -⟩ := hostMove_sameRun (op := op) (s := { s with agenda := rest })
        (fun hop => hreset (hop ▸ hhead)) fun hop => hstart (hop ▸ hhead)
      rw [step_host ha, hu] at h
      cases h
      rw [← hrun.ctrr]

/-- Settles O35: START loads the normalized nonce, every other step but a `Reset` leaves the nonce half. -/
theorem nonceHalfNeverModified : Obligations.NonceHalfNeverModified := by
  intro s t h hreset
  split
  next hs =>
    obtain ⟨hb, hhead⟩ := hs
    obtain ⟨rest, ha⟩ := List.head?_eq_some_iff.1 hhead
    rw [step_start hb ha] at h
    cases h
    exact operandCtrr_nonceHalf s
  next hs => exact step_nonceHalf_kept h hreset fun hhead => by_contra fun hb => hs ⟨hb, hhead⟩

/-! #### The block step of CTR -/

/-- At `BI < N` of a CTR run either command takes the one block step of CTR, whatever `DIR` latches (R190, R191). -/
theorem exec_ctr_eq_blockStep {i : Instr} {s : State} (hc : i.command.mode = .ctr) (hb : s.st = .busy)
    (hmode : s.mode = .ctr) (hi : s.bi < s.n) : exec i s = blockStep (blockOf Config.platform .ctr .encrypt) s := by
  have hp : inProgress i.command.mode i.command.dir s = true :=
    inProgress_iff.2 ⟨hmode.trans hc.symm, .inl (.inr hc)⟩
  rw [exec_eq_blockStep hb hp hmode rfl hi, blockOf_of_stream (.inr rfl)]

/-- With its request answered, but a counter byte above 127, the block step of CTR has no meaning (R192 b, log 9). -/
theorem blockOf_ctr_of_outOfRange {p : Platform} {x : BlockIn} {y : Block} (hy : p.E x.alg x.key x.ctrr = some y)
    (hc : counterInRange x.ctrr = false) :
    blockOf p .ctr .encrypt x = .error (.noMeaning .counterByteAbove127) := by
  have hprim : prim p .enc x.alg x.key x.ctrr = .ok y := prim_eq_ok_iff.2 hy
  simp only [blockOf, ctrBlock, hprim, ctrinc_of_outOfRange hc]

theorem blockStep_of_noMeaning {f : BlockIn → Except BlockStop BlockOut} {s : State} {m : Block} {r : Refusal}
    (hm : s.msg[s.bi]? = some m) (hw : f ⟨s.alg, s.keyn, m, s.cv, s.ctrr⟩ = .error (.noMeaning r)) :
    blockStep f s = .refused r := by
  simp only [blockStep, hm, hw]

/-- Settles O18: a request not answered raises, whatever the counter; one answered completes with a counter in range,
and is refused without. -/
theorem ctrBlockStep : Obligations.CtrBlockStep := by
  intro i a s m hcmd hb hmode hi hm
  have hc : i.command.mode = .ctr := by rcases hcmd with rfl | rfl <;> rfl
  rw [exec_ctr_eq_blockStep hc hb hmode hi]
  cases ha : Config.E s.alg s.keyn s.ctrr with
  | none =>
    have hraises : blockStep (blockOf Config.platform .ctr .encrypt) s =
        .next (errorEntry .cipherPrimitiveError s) := blockStep_of_raises hm (blockOf_of_answer_none ha)
    exact ⟨fun _ => hraises, fun _ => hraises⟩
  | some k =>
    constructor
    · intro hrange
      exact blockStep_of_ok (w := ⟨xorBlock m k, s.cv, ctrAt s.ctrr (s.ctrr.counterValue + 1)⟩) hm
        (blockOf_eq_ok_iff.2 ⟨k, ha, ctrinc_of_inRange hrange, rfl, rfl⟩)
    · intro hrange
      exact blockStep_of_noMeaning hm (blockOf_ctr_of_outOfRange ha hrange)

/-! #### A whole run of CTR -/

/-- CTR leaves in `CV` what START loaded. -/
theorem cvThreads_ctr (iv : Block) (ms os : List Block) : CvThreads .ctr .encrypt ms os fun _ => iv :=
  fun _ _ _ _ hcv _ => hcv

/-- Settles O55: each block of the run, with the counter at its index in `CTRR`. -/
theorem ctrWholeRun : Obligations.CtrWholeRun := by
  intro p m k iv no out dir alg
  simp only [ctrAt_mod]
  rw [run_of_stream (.inr rfl)]
  exact run_eq_ok_iff (cvs := fun _ _ => zext8 (normalize iv 8)) (fun _ => rfl) (cvThreads_ctr _ (split m))

end Sys2Proof.Machine

/-! ### Family `47_dispatcher.md`: START, the moves of the sequencer, the end of a run, and the run as one function -/

namespace Sys2Proof.Machine

open Sys2Proof

/-! #### Which command a step runs -/

/-- A command word carried in a byte decodes to its row (R83). -/
theorem decode_setWidth (c : BitVec 5) : decode [c.setWidth 8] = .ok (decodeCmd c, []) := by
  rw [decode_eq_ok_iff, encodeBytes, encode_decodeCmd, List.append_nil, BitVec.setWidth_eq_append (by decide)]
  rfl

/-- In a run a turn of the engine executes the latched command (R213). -/
theorem engineMove_eq_exec {s : State} (hb : s.st = .busy) : engineMove s = exec (latched s) s := by
  rw [engineMove, if_pos hb]

/-- Settles O7: `Start` decodes `CMD`; the engine's turn, listed or not, executes what START latched. -/
theorem stepRunsTheSelectedCommand : Obligations.StepRunsTheSelectedCommand := by
  constructor
  · intro s rest i hdecode hb ha
    rw [decode_setWidth] at hdecode
    cases hdecode
    exact (step_host ha).trans (startMove_eq_exec (s := { s with agenda := rest }) hb)
  · intro s hb
    refine ⟨latched_command s, fun ha => ?_, fun rest ha => ?_⟩
    · rw [Laws.step_of_agenda_nil ha, engineMove_eq_exec hb]
    · exact (step_engine ha).trans (engineMove_eq_exec (s := { s with agenda := rest }) hb)

/-! #### START -/

theorem keyBytes_eq (a : Alg) : Config.keyBytes a = if a = .triple then 24 else 8 := by cases a <;> rfl

/-- START with its operands written out from the raw buffers (R88, R211). -/
theorem start_eq (c : Command) (s : State) :
    start c s = { s with
      alg := c.alg
      dir := c.dir
      mode := c.mode
      msg := split s.rawMsg
      n := ceil8 s.rawMsg.length
      keyn := normalize s.rawKey (if c.alg = .triple then 24 else 8)
      ivn := zext8 (normalize s.rawIv 8)
      cv := zext8 (normalize s.rawIv 8)
      ctrr := zext8 (normalize s.rawNonce 4 ++ [0, 0, 0, 0])
      outb := []
      bi := 0
      out := []
      status := 0b0001#4 } := by
  rw [← keyBytes_eq]
  rfl

/-- Settles O9: outside a run every command is START of what it stands for. -/
theorem everyCommandStartsARun : Obligations.EveryCommandStartsARun := fun i s hb => by
  rw [exec_notBusy i s hb, start_eq]

/-- Settles O10: in a run `Start` is ignored, outside one it is START of the fields of `CMD`. -/
theorem startBuildsAFreshEngine : Obligations.StartBuildsAFreshEngine := by
  intro s rest ha
  split
  next hb => exact (step_host ha).trans (startMove_busy { s with agenda := rest } hb)
  next hb => rw [step_start hb ha, start_eq]

/-! #### The datapath -/

/-- Settles O24: the table of R214, row by row. -/
theorem datapathMultiplexersAgree : Obligations.DatapathMultiplexersAgree := blockOf_eq_datapath

/-! #### How `ST` and `BI` move -/

/-- In a run an engine step writes a block, raises, or finishes (R217). -/
theorem EngineStep.status_moves {s t : State} (h : EngineStep s t) (hb : s.st = .busy) :
    (s.bi < s.n ∧ t.st = .busy ∧ t.bi = s.bi + 1) ∨ (s.bi < s.n ∧ t.st = .error ∧ t.bi = s.bi) ∨
      (s.bi = s.n ∧ t.st = .done ∧ t.bi = s.bi) := by
  cases h with
  | block _ hi _ _ _ _ ht => subst ht; exact .inl ⟨hi, hb, rfl⟩
  | raises _ hi _ _ _ ht => subst ht; exact .inr (.inl ⟨hi, errorEntry_st _ s, rfl⟩)
  | finish _ hi _ _ ht => subst ht; exact .inr (.inr ⟨hi, stOf_finishStatus _, rfl⟩)
  | idle hn _ => exact absurd hb hn

/-- Outside a run a turn of the engine changes nothing (log 16). -/
theorem EngineStep.eq_of_notBusy {s t : State} (h : EngineStep s t) (hb : s.st ≠ .busy) : t = s :=
  Host.Outcome.next.inj (h.engineMove_eq.symm.trans (engineMove_notBusy s hb))

/-- With no move listed, or its own turn listed next, the engine moves. -/
theorem step_engineTurn {s t : State} (h : step s = .next t)
    (hturn : s.agenda = [] ∨ s.agenda.head? = some .engine) :
    ∃ rest, EngineStep { s with agenda := rest } t := by
  rcases hturn with ha | hhead
  · exact ⟨s.agenda, engineMove_next ((Laws.step_of_agenda_nil ha).symm.trans h)⟩
  · obtain ⟨rest, ha⟩ := List.head?_eq_some_iff.1 hhead
    exact ⟨rest, engineMove_next ((step_engine ha).symm.trans h)⟩

/-- A step that is not the engine's turn, not `Reset`, and not a `Start` outside a run leaves the run (R61). -/
theorem step_hostTurn_sameRun {s t : State} (h : step s = .next t)
    (hturn : ¬(s.agenda = [] ∨ s.agenda.head? = some .engine)) (hreset : s.agenda.head? ≠ some (.host .reset))
    (hstart : s.agenda.head? = some (.host .start) → s.st = .busy) : SameRun s t := by
  cases ha : s.agenda with
  | nil => exact absurd (.inl ha) hturn
  | cons move rest =>
    cases move with
    | engine => exact absurd (.inr (by rw [ha, List.head?_cons])) hturn
    | host op =>
      have hhead : s.agenda.head? = some (.host op) := by rw [ha, List.head?_cons]
      obtain ⟨u, hu, hrun, -⟩ := hostMove_sameRun (op := op) (s := { s with agenda := rest })
        (fun hop => hreset (hop ▸ hhead)) fun hop => hstart (hop ▸ hhead)
      rw [step_host ha, hu] at h
      cases h
      exact (sameRun_agenda s rest).trans hrun

/-- Settles O30, by whose turn it is: the engine's, in a run or outside one; or the host's, a `Reset`, a `Start` outside
a run, or an operation that leaves the run. -/
theorem statusMovesOnlyAsListed : Obligations.StatusMovesOnlyAsListed := by
  intro s t h
  by_cases hturn : s.agenda = [] ∨ s.agenda.head? = some .engine
  · obtain ⟨rest, hs⟩ := step_engineTurn h hturn
    by_cases hb : s.st = .busy
    · rcases hs.status_moves hb with ⟨hi, hst, hbi⟩ | ⟨hi, hst, hbi⟩ | ⟨hi, hst, hbi⟩
      · exact .inr (.inl ⟨hb, hturn, hi, hst, hbi⟩)
      · exact .inr (.inr (.inl ⟨hb, hturn, hi, hst, hbi⟩))
      · exact .inr (.inr (.inr (.inl ⟨hb, hturn, hi, hst, hbi⟩)))
    · have hengine (op : HostOp) : s.agenda.head? ≠ some (.host op) := by
        rcases hturn with ha | ha <;> simp [ha]
      obtain rfl := hs.eq_of_notBusy hb
      exact .inr (.inr (.inr (.inr (.inr
        ⟨rfl, rfl, hengine _, fun hstart => hengine _ hstart.2, fun hbusy => hb hbusy.1⟩))))
  · by_cases hreset : s.agenda.head? = some (.host .reset)
    · obtain ⟨rest, ha⟩ := List.head?_eq_some_iff.1 hreset
      rw [step_host ha] at h
      cases h
      exact .inr (.inr (.inr (.inr (.inl ⟨hreset, hostReset_st _⟩))))
    · by_cases hstart : s.st ≠ .busy ∧ s.agenda.head? = some (.host .start)
      · obtain ⟨hb, hhead⟩ := hstart
        obtain ⟨rest, ha⟩ := List.head?_eq_some_iff.1 hhead
        rw [step_start hb ha] at h
        cases h
        exact .inl ⟨hb, hhead, start_st _ _, rfl⟩
      · have hrun := step_hostTurn_sameRun h hturn hreset fun hhead => by_contra fun hb => hstart ⟨hb, hhead⟩
        exact .inr (.inr (.inr (.inr (.inr
          ⟨hrun.st_eq.symm, hrun.bi.symm, hreset, hstart, fun hbusy => hturn hbusy.2⟩))))

/-! #### A run in progress -/

/-- What the steps of a run keep, whatever the raw buffers hold: `State.Inv` in a run, but for its clauses on capacities
and on the key, which no engine step needs. -/
structure State.InRun (s : State) : Prop where
  status : s.status = startStatus
  blockCount : s.n = s.msg.length
  index : s.bi ≤ s.n
  written : s.outb.map Prod.fst = List.range s.bi
  counter : counterInRange s.ctrr = true

theorem State.InRun.busy {s : State} (h : s.InRun) : s.st = .busy := congrArg stOf h.status

theorem State.Inv.inRun {s : State} (h : s.Inv) (hb : s.st = .busy) : s.InRun where
  status := by
    have herr : s.err = .none := by simpa [hb] using h.errIff
    have hfields : packStatus s.st s.err = s.status := packStatus_fields s.status
    rw [← hfields, hb, herr]
    rfl
  blockCount := h.blockCount (by simp [hb])
  index := h.index (by simp [hb])
  written := h.written (by simp [hb])
  counter := h.counter (by simp [hb])

theorem State.InRun.of_start (c : Command) (s : State) : (start c s).InRun where
  status := rfl
  blockCount := (split_length s.rawMsg).symm
  index := Nat.zero_le _
  written := rfl
  counter := by rw [start_ctrr, operandCtrr_eq]; exact ctrAt_inRange _ 0

theorem State.InRun.of_commitBlock {s : State} (h : s.InRun) (hi : s.bi < s.n) {w : BlockOut}
    (hw : counterInRange w.ctrr = true) : (commitBlock w s).InRun where
  status := h.status
  blockCount := h.blockCount
  index := hi
  written := (Memory.write_keys_range _ _ _ h.written).2
  counter := hw

/-- At `BI < N` the block step has its input block, and completes or raises: the counter is in range. -/
theorem State.InRun.block_or_raises {s : State} (h : s.InRun) (hi : s.bi < s.n) :
    ∃ m, s.msg[s.bi]? = some m ∧
      ((∃ w, blockOf Config.platform s.mode s.dir ⟨s.alg, s.keyn, m, s.cv, s.ctrr⟩ = .ok w) ∨
        blockOf Config.platform s.mode s.dir ⟨s.alg, s.keyn, m, s.cv, s.ctrr⟩ =
          .error (.raises .cipherPrimitiveError)) := by
  refine ⟨_, List.getElem?_eq_getElem (h.blockCount ▸ hi), ?_⟩
  cases hw : blockOf Config.platform s.mode s.dir ⟨s.alg, s.keyn, _, s.cv, s.ctrr⟩ with
  | ok w => exact .inl ⟨w, rfl⟩
  | error e =>
    rcases blockOf_error hw with ⟨rfl, -⟩ | ⟨-, -, hc⟩
    · exact .inr rfl
    · rw [h.counter] at hc; cases hc

/-- At `BI = N` FINISH is enabled, and finds every block (R216). -/
theorem State.InRun.finishes {s : State} (h : s.InRun) (hi : s.bi = s.n) :
    EngineStep s { s with out := join (s.outb.map Prod.snd), status := finishStatus startStatus } := by
  have hgather : Memory.gather s.outb 0 s.n = some (s.outb.map Prod.snd) :=
    Memory.gather_keys_range s.outb s.n (hi ▸ h.written)
  exact .finish h.busy hi _ hgather (by rw [h.status])

/-- In a run an engine step is always enabled (R218). -/
theorem State.InRun.exists_engineStep {s : State} (h : s.InRun) : ∃ t, EngineStep s t := by
  rcases Nat.lt_or_eq_of_le h.index with hi | hi
  · obtain ⟨m, hm, ⟨w, hw⟩ | hw⟩ := h.block_or_raises hi
    · exact ⟨_, .block h.busy hi m w hm hw rfl⟩
    · exact ⟨_, .raises h.busy hi m hm hw rfl⟩
  · exact ⟨_, h.finishes hi⟩

/-- Settles O22: a command of the run takes the engine's step, which is FINISH. -/
theorem finishDeliversTheJoin : Obligations.FinishDeliversTheJoin := by
  intro i s h hb hi hp
  have hrun := h.inRun hb
  have hlen : (s.outb.map Prod.snd).length = s.n := by simpa [hi] using congrArg List.length hrun.written
  refine ⟨s.outb.map Prod.snd, _, hlen, fun j _ => Memory.read_keys_range _ _ hrun.written j, rfl, ?_,
    engineMove_notBusy _ ?_, fun hn => ?_⟩
  · rw [exec_busy i s hb hp, ← engineMove_busy s hb, (hrun.finishes hi).engineMove_eq]
    rfl
  · show stOf (finishStatus startStatus) ≠ .busy
    simp
  · rw [List.eq_nil_of_length_eq_zero (hlen.trans hn), join_nil]

/-! #### No state is stuck -/

/-- A host operation always gives a next state. -/
theorem exists_hostMove (op : HostOp) (s : State) : ∃ t, hostMove op s = .next t := by
  cases op with
  | start =>
    by_cases hb : s.st = .busy
    · exact ⟨_, startMove_busy s hb⟩
    · exact ⟨_, startMove_notBusy s hb⟩
  | _ => exact ⟨_, rfl⟩

theorem State.Inv.exists_engineMove {s : State} (h : s.Inv) : ∃ t, engineMove s = .next t := by
  by_cases hb : s.st = .busy
  · exact (h.inRun hb).exists_engineStep.imp fun _ => EngineStep.engineMove_eq
  · exact ⟨s, engineMove_notBusy s hb⟩

/-- Settles O34, by the next move of the agenda. -/
theorem noStepStops : Obligations.NoStepStops := by
  intro s h
  cases ha : s.agenda with
  | nil => rw [Laws.step_of_agenda_nil ha]; exact h.exists_engineMove
  | cons move rest =>
    cases move with
    | engine => rw [step_engine ha]; exact (h.of_agenda rest).exists_engineMove
    | host op => rw [step_host ha]; exact exists_hostMove op _

/-! #### The small steps of a run and the one function -/

/-- What the run in progress comes to, as R219 says it: the blocks written so far and those the rest of the Message
gives, or the failure that ends it. -/
def State.result (s : State) : Except BlockStop (List Byte) :=
  (runBlocks (blockOf Config.platform s.mode s.dir) s.alg s.keyn (s.msg.drop s.bi) s.cv s.ctrr).map fun os =>
    join (s.outb.map Prod.snd ++ os)

/-- A run is over with the given result: done with its bytes, or in error with no bytes. -/
def State.EndsAs (t : State) : Except BlockStop (List Byte) → Prop
  | .ok bytes => t.st = .done ∧ t.err = .none ∧ t.out = bytes
  | .error (.raises e) => e = .cipherPrimitiveError ∧ t.st = .error ∧ t.err = .cipherPrimitiveError ∧ t.out = []
  | .error (.noMeaning _) => False

theorem State.EndsAs.done_or_error {t : State} {r : Except BlockStop (List Byte)} (h : t.EndsAs r) :
    t.st = .done ∨ t.st = .error := by
  match r, h with
  | .ok _, ⟨hst, _⟩ => exact .inl hst
  | .error (.raises _), ⟨_, hst, _⟩ => exact .inr hst

/-- The first block of a run, and what the rest of the run makes of it. -/
theorem runBlocks_cons_of_ok {f : BlockIn → Except BlockStop BlockOut} {alg : Alg} {key : List Byte} {m : Block}
    {cv ctrr : Block} {w : BlockOut} (hw : f ⟨alg, key, m, cv, ctrr⟩ = .ok w) (ms : List Block) :
    runBlocks f alg key (m :: ms) cv ctrr = (runBlocks f alg key ms w.cv w.ctrr).map (w.out :: ·) := by
  rw [runBlocks, hw]
  cases h : runBlocks f alg key ms w.cv w.ctrr <;> simp [h, Except.map]

/-- The first failure ends a run (R246). -/
theorem runBlocks_cons_of_error {f : BlockIn → Except BlockStop BlockOut} {alg : Alg} {key : List Byte} {m : Block}
    {cv ctrr : Block} {e : BlockStop} (he : f ⟨alg, key, m, cv, ctrr⟩ = .error e) (ms : List Block) :
    runBlocks f alg key (m :: ms) cv ctrr = .error e := by
  rw [runBlocks, he]

theorem drop_eq_cons_of_getElem? {ms : List Block} {i : Nat} {m : Block} (h : ms[i]? = some m) :
    ms.drop i = m :: ms.drop (i + 1) := by
  rw [List.drop_eq_getElem?_toList_append, h]
  rfl

/-- At `BI = N` there is no block to come. -/
theorem State.InRun.result_of_end {s : State} (h : s.InRun) (hi : s.bi = s.n) :
    s.result = .ok (join (s.outb.map Prod.snd)) := by
  rw [State.result, List.drop_of_length_le (by rw [hi, h.blockCount]), runBlocks, Except.map, List.append_nil]

/-- A completed block step does not change what the run comes to. -/
theorem State.InRun.result_of_commitBlock {s : State} (h : s.InRun) {m : Block} {w : BlockOut}
    (hm : s.msg[s.bi]? = some m)
    (hw : blockOf Config.platform s.mode s.dir ⟨s.alg, s.keyn, m, s.cv, s.ctrr⟩ = .ok w) :
    (commitBlock w s).result = s.result := by
  simp only [State.result, drop_eq_cons_of_getElem? hm, runBlocks_cons_of_ok hw, commitBlock_outb,
    (Memory.write_keys_range _ _ w.out h.written).1, commitBlock_mode, commitBlock_dir, commitBlock_alg,
    commitBlock_keyn, commitBlock_msg, commitBlock_bi, commitBlock_cv, commitBlock_ctrr]
  cases runBlocks (blockOf Config.platform s.mode s.dir) s.alg s.keyn (s.msg.drop (s.bi + 1)) w.cv w.ctrr with
  | error e => rfl
  | ok os => simp [Except.map]

theorem State.result_of_raises {s : State} {m : Block} (hm : s.msg[s.bi]? = some m)
    (hw : blockOf Config.platform s.mode s.dir ⟨s.alg, s.keyn, m, s.cv, s.ctrr⟩ =
      .error (.raises .cipherPrimitiveError)) : s.result = .error (.raises .cipherPrimitiveError) := by
  rw [State.result, drop_eq_cons_of_getElem? hm, runBlocks_cons_of_error hw, Except.map]

/-- START sets up what the one function computes from the raw buffers (R219). -/
theorem start_result (c : Command) (s : State) :
    (start c s).result = run Config.platform s.rawMsg s.rawKey s.rawIv s.rawNonce c := by
  have hmap : (start c s).result =
      (runBlocks (blockOf Config.platform c.mode c.dir) c.alg (operandKey c.alg s) (operandMsg s) (operandIv s)
        (operandCtrr s)).map join := rfl
  rw [hmap, run]
  split
  next e he => exact congrArg (Except.map join) he
  next os hos => exact congrArg (Except.map join) hos

theorem run_succ_of_engineStep {s t : State} (ha : s.agenda = []) (hs : EngineStep s t) (k : Nat) :
    Sys2Proof.core.run (k + 1) s = Sys2Proof.core.run k t :=
  Laws.run_succ_of_next ((Laws.step_of_agenda_nil ha).trans hs.engineMove_eq)

/-- With no host move to come a run takes its remaining blocks and FINISH, and ends as its result says; a run that
raises before then keeps still for the rest of the turns. `CMD` and the raw buffers stay. -/
theorem State.InRun.run_endsAs {s : State} (h : s.InRun) (ha : s.agenda = []) {k : Nat} (hk : s.n - s.bi = k) :
    ∃ t : State, Sys2Proof.core.run (k + 1) s = .next t ∧ t.EndsAs s.result ∧ t.cmd = s.cmd ∧
      ∀ x, t.raw x = s.raw x := by
  induction k generalizing s with
  | zero =>
    have hi : s.bi = s.n := by have := h.index; omega
    refine ⟨_, run_succ_of_engineStep ha (h.finishes hi) 0, ?_, rfl, fun x => by cases x <;> rfl⟩
    rw [h.result_of_end hi]
    exact ⟨stOf_finishStatus _, errOf_finishStatus _, rfl⟩
  | succ k ih =>
    have hi : s.bi < s.n := by omega
    obtain ⟨m, hm, ⟨w, hw⟩ | hw⟩ := h.block_or_raises hi
    · have hnext : (commitBlock w s).InRun := h.of_commitBlock hi ((blockOf_ok_counter hw).2 h.counter)
      obtain ⟨t, hrun, hend, hcmd, hraw⟩ := ih hnext ha (by rw [commitBlock_n, commitBlock_bi]; omega)
      rw [h.result_of_commitBlock hm hw] at hend
      exact ⟨t, (run_succ_of_engineStep ha (.block h.busy hi m w hm hw rfl) _).trans hrun, hend, hcmd,
        fun x => (hraw x).trans (by cases x <;> rfl)⟩
    · refine ⟨_, (run_succ_of_engineStep ha (.raises h.busy hi m hm hw rfl) _).trans
        (Laws.run_of_notBusy _ (by simp) ha), ?_, rfl, fun x => by cases x <;> rfl⟩
      rw [State.result_of_raises hm hw]
      exact ⟨rfl, errorEntry_st _ s, errorEntry_err _ s, rfl⟩

/-- Settles O39: the remaining blocks and FINISH are steps enough. -/
theorem runEndsWithinItsBlocks : Obligations.RunEndsWithinItsBlocks := by
  intro s h hb ha
  obtain ⟨t, hrun, hend, -, -⟩ := (h.inRun hb).run_endsAs ha rfl
  exact ⟨_, t, Nat.le_refl _, hrun, hend.done_or_error⟩

/-- Settles O40: START, then the run that it sets up. -/
theorem startedRunGivesWhatRunSays : Obligations.StartedRunGivesWhatRunSays := by
  intro s hb ha
  obtain ⟨t, hrun, hend, hcmd, hraw⟩ := (State.InRun.of_start (fieldsOf s.cmd)
    { s with agenda := [], answer := .nothing }).run_endsAs rfl rfl
  rw [start_result] at hend
  refine ⟨t, (Laws.run_succ_of_next (step_start hb ha)).trans hrun, hcmd, fun x => (hraw x).trans ?_, hend⟩
  cases x <;> rfl

/-- Settles O41: START and FINISH, with no block between them. -/
theorem emptyMessageAlwaysSucceeds : Obligations.EmptyMessageAlwaysSucceeds := fun _ hb ha hm =>
  ⟨_, run_two_of_emptyMessage hb ha hm, stOf_finishStatus _, errOf_finishStatus _, rfl⟩

/-! #### The bytes of a run -/

/-- Settles O50: a block for each block of the Message, eight bytes each. -/
theorem resultLength : Obligations.ResultLength := by
  intro p m k iv no out c hrun
  obtain ⟨os, hos, rfl⟩ := Laws.run_eq_ok.1 hrun
  rw [join_length, Laws.runBlocks_length hos, split_length]

/-- The block step of decryption undoes that of encryption from the same chaining registers, and leaves the same in
them: CBC and CFB chain on the ciphertext block, which one of them reads and the other writes; OFB and CTR on no block.
In ECB and CBC the primitive has to be undone, in the others the same mask is taken off again. -/
theorem blockOf_decrypt_of_encrypt {p : Platform} {mode : Mode} (hp : mode = .ecb ∨ mode = .cbc → p.Inverse)
    {alg : Alg} {key : List Byte} (hkey : key.length = Config.keyBytes alg) {m cv ctrr : Block} {w : BlockOut}
    (h : blockOf p mode .encrypt ⟨alg, key, m, cv, ctrr⟩ = .ok w) :
    blockOf p mode .decrypt ⟨alg, key, w.out, cv, ctrr⟩ = .ok ⟨m, w.cv, w.ctrr⟩ := by
  obtain ⟨y, hy, hctrr, hout, hcv⟩ := blockOf_eq_ok_iff.1 h
  have hmask (x : Block) : m = xorBlock (xorBlock m x) x := (xorBlock_cancel m x).symm
  rw [hout, hcv]
  cases mode with
  | ecb => exact blockOf_eq_ok_iff.2 ⟨m, (hp (.inl rfl) alg key m y hkey).1 hy, hctrr, rfl, rfl⟩
  | cbc => exact blockOf_eq_ok_iff.2 ⟨xorBlock m cv, (hp (.inr rfl) alg key _ y hkey).1 hy, hctrr, hmask cv, rfl⟩
  | cfb => exact blockOf_eq_ok_iff.2 ⟨y, hy, hctrr, hmask y, rfl⟩
  | ofb => exact blockOf_eq_ok_iff.2 ⟨y, hy, hctrr, hmask y, rfl⟩
  | ctr => exact blockOf_eq_ok_iff.2 ⟨y, hy, hctrr, hmask y, rfl⟩

theorem runBlocks_decrypt_of_encrypt {p : Platform} {mode : Mode} (hp : mode = .ecb ∨ mode = .cbc → p.Inverse)
    {alg : Alg} {key : List Byte} (hkey : key.length = Config.keyBytes alg) {ms os : List Block} {cv ctrr : Block}
    (h : runBlocks (blockOf p mode .encrypt) alg key ms cv ctrr = .ok os) :
    runBlocks (blockOf p mode .decrypt) alg key os cv ctrr = .ok ms := by
  induction ms generalizing os cv ctrr with
  | nil => rw [Laws.runBlocks_nil_ok.1 h]; rfl
  | cons m ms ih =>
    obtain ⟨w, rest, hw, hrest, rfl⟩ := Laws.runBlocks_cons_ok.1 h
    exact Laws.runBlocks_cons_ok.2 ⟨_, ms, blockOf_decrypt_of_encrypt hp hkey hw, ih hrest, rfl⟩

/-- Settles O56: block by block; the blocks of the Message join to the padded message. -/
theorem roundTripGivesThePaddedMessage : Obligations.RoundTripGivesThePaddedMessage := by
  intro p m k iv no c mode alg hp hrun
  obtain ⟨os, hos, rfl⟩ := Laws.run_eq_ok.1 hrun
  refine Laws.run_eq_ok.2 ⟨split m, ?_, (join_split_eq_pad m).symm⟩
  rw [split_join_self]
  exact runBlocks_decrypt_of_encrypt hp (normalize_length k _) hos

/-! #### STRIP -/

/-- STRIP leaves exactly the buffers that do not end in a zero byte. -/
theorem strip_eq_self_iff {b : List Byte} : strip b = b ↔ b.getLast? ≠ some 0 := by
  have hstrip : strip b = b.rdropWhile (· == 0) := rfl
  rw [hstrip, List.rdropWhile_eq_self_iff]
  cases b using List.reverseRecOn with
  | nil => simp
  | append_singleton b x => simp

theorem strip_strip (b : List Byte) : strip (strip b) = strip b := List.rdropWhile_idempotent _ b

/-- STRIP does not see zero bytes behind a buffer, whoever put them there. -/
theorem strip_append_zeros (b : List Byte) (k : Nat) : strip (b ++ List.replicate k 0) = strip b := by
  have hzero : ∀ x ∈ List.replicate k (0 : Byte), (x == 0) = true := by simp
  rw [strip, List.reverse_append, List.reverse_replicate, List.dropWhile_append_of_pos hzero, strip]

/-- What STRIP takes off is zero bytes. -/
theorem exists_eq_strip_append_zeros (b : List Byte) : ∃ k, b = strip b ++ List.replicate k 0 := by
  have hzero : b.rtakeWhile (· == 0) = List.replicate (b.rtakeWhile (· == 0)).length 0 :=
    List.eq_replicate_of_mem fun x hx => by simpa using List.mem_rtakeWhile_imp hx
  exact ⟨_, (List.rdropWhile_append_rtakeWhile ..).symm.trans (congrArg (strip b ++ ·) hzero)⟩

/-- Settles O48: what is taken off, what is left, and that STRIP of the padding is STRIP of the message. -/
theorem stripRemovesTrailingZeros : Obligations.StripRemovesTrailingZeros := by
  intro b
  refine ⟨exists_eq_strip_append_zeros b, strip_eq_self_iff.1 (strip_strip b), ?_⟩
  rw [pad, strip_append_zeros, strip_eq_self_iff]
  constructor
  · exact fun h => .inr h
  · rintro (rfl | h)
    · simp
    · exact h

end Sys2Proof.Machine

/-! ### Families `60_exceptions.md` and `70_reset_and_hazards.md`: the error entry, and `Reset` -/

namespace Sys2Proof.Machine

open Sys2Proof

/-! #### The error entry -/

/-- The code of `CipherPrimitiveError` over `ST = ERROR` (R26, R240). -/
theorem errorStatus_cipherPrimitiveError : errorStatus .cipherPrimitiveError = 0b0111#4 := rfl

/-- The code of `LengthMismatch` over `ST = ERROR` (R26, R240): the lengths are not recorded. -/
theorem errorStatus_lengthMismatch (la lb : Nat) : errorStatus (.lengthMismatch la lb) = 0b1011#4 :=
  (rfl : packStatus .error .lengthMismatch = 0b1011#4)

/-- Settles O23: at `BI < N` the engine takes the block step, which is the error entry; that has left the run. -/
theorem errorEntryIsPrecise : Obligations.ErrorEntryIsPrecise := by
  intro f s t m e hi hm hw ht
  have hentry : t = errorEntry e s := by
    cases e with
    | cipherPrimitiveError => rw [ht, errorEntry, errorStatus_cipherPrimitiveError]
    | lengthMismatch la lb => rw [ht, errorEntry, errorStatus_lengthMismatch]
  have hleft : t.st ≠ .busy := by simp [hentry]
  refine ⟨?_, engineMove_notBusy t hleft⟩
  rw [advance, if_pos hi, blockStep_of_raises hm hw, hentry]

/-! #### `Reset` -/

@[simp] theorem hostReset_raw (s : State) (x : RawBuf) : (hostReset s).raw x = [] := by cases x <;> rfl

/-- Settles O28: the move is `hostReset`, which keeps of the state the moves to come only. -/
theorem resetFromAnyState : Obligations.ResetFromAnyState := fun s rest ha =>
  ⟨hostReset { s with agenda := rest }, step_host ha, hostReset_st _, hostReset_err _, hostReset_cmd _,
    hostReset_raw _, hostReset_out _, hostReset_agenda _, .refl _⟩

end Sys2Proof.Machine
